-- ==== Sys2Proof/Word.lean ====
section
/-! DEFINITION. The word types of IDEA-CORE: byte, 16-bit subblock or subkey, 32-bit command word, 128-bit key register. -/

namespace Sys2Proof

/-- One byte of a buffer (R7: "A byte is 8 bits"). -/
abbrev Byte := BitVec 8

/-- One subblock or subkey: 16 bits, unsigned (R10, R13). -/
abbrev Word := BitVec 16

/-- One command word: 32 bits (R50). -/
abbrev CommandWord := BitVec 32

/-- The 128-bit key register `KR` of the key scheduler, a transient of KEXP (R27, R31). -/
abbrev KeyRegister := BitVec 128

/-- A hexadecimal digit's value, 0..15 (R130). -/
abbrev Nibble := BitVec 4

end Sys2Proof
end

