-- ==== Sys2Proof/Syntax.lean ====
section
/-! DEFINITION. The data registers' names and the 20 commands (30_encoding.md R54), one constructor a row of the opcode table. -/

namespace Sys2Proof

/-- A data register: `A` = X[0], `B` = X[1], `C` = X[2], `D` = X[3] (R8, R10). -/
inductive Reg where
  | A | B | C | D
  deriving DecidableEq, Repr

/-- The mnemonics of R54, in the table's order. -/
inductive Mnemonic where
  | CLR | LDI | ADD | MUL | AINV | MINV | KPUT | KEXP | LDK | ENCB | DECB
  | IPUT | PAD | LDBLK | STHEX | LDHEX | STBLK | UNPAD | ENCMSG | DECMSG
  deriving DecidableEq, Repr

/-- A command, with the operands its format gives it (R52, R58: destination first). -/
inductive Instr where
  /-- CLR mask: clear the parts of the state the mask names (R161). -/
  | clr (mask : BitVec 16)
  /-- LDI rd, imm16: load immediate (R77). -/
  | ldi (rd : Reg) (imm : BitVec 16)
  /-- ADD rd, rs1, rs2: addition modulo 2^16 (R78). -/
  | add (rd rs1 rs2 : Reg)
  /-- MUL rd, rs1, rs2: multiplication modulo 2^16+1 with the zero-mapping (R79). -/
  | mul (rd rs1 rs2 : Reg)
  /-- AINV rd, rs1: additive inverse (R80). -/
  | ainv (rd rs1 : Reg)
  /-- MINV rd, rs1: multiplicative inverse (R81). -/
  | minv (rd rs1 : Reg)
  /-- KPUT imm8: append one key byte (R95). -/
  | kput (imm : BitVec 8)
  /-- KEXP: expand the key (R96). -/
  | kexp
  /-- LDK rd, index: read one subkey (R97). -/
  | ldk (rd : Reg) (index : BitVec 16)
  /-- ENCB: encrypt the Block in the data registers (R109). -/
  | encb
  /-- DECB: decrypt the Block in the data registers (R121). -/
  | decb
  /-- IPUT imm8: append one byte to the input buffer (R137). -/
  | iput (imm : BitVec 8)
  /-- PAD: pad the input buffer to whole blocks (R138). -/
  | pad
  /-- LDBLK n: load block `n` of the input buffer (R139). -/
  | ldblk (n : BitVec 16)
  /-- STHEX: append the data registers as 16 hexadecimal characters (R140). -/
  | sthex
  /-- LDHEX n: parse 16-character group `n` of the input buffer (R141). -/
  | ldhex (n : BitVec 16)
  /-- STBLK: append the data registers as 8 raw bytes (R142). -/
  | stblk
  /-- UNPAD: truncate the output buffer at the first sentinel (R143). -/
  | unpad
  /-- ENCMSG: encrypt the message in IB under the key in KB (R156). -/
  | encmsg
  /-- DECMSG: decrypt the ciphertext text in IB under the key in KB (R158). -/
  | decmsg
  deriving DecidableEq, Repr

/-- The command's mnemonic (R54). -/
def Instr.mnemonic : Instr → Mnemonic
  | .clr _ => .CLR
  | .ldi _ _ => .LDI
  | .add _ _ _ => .ADD
  | .mul _ _ _ => .MUL
  | .ainv _ _ => .AINV
  | .minv _ _ => .MINV
  | .kput _ => .KPUT
  | .kexp => .KEXP
  | .ldk _ _ => .LDK
  | .encb => .ENCB
  | .decb => .DECB
  | .iput _ => .IPUT
  | .pad => .PAD
  | .ldblk _ => .LDBLK
  | .sthex => .STHEX
  | .ldhex _ => .LDHEX
  | .stblk => .STBLK
  | .unpad => .UNPAD
  | .encmsg => .ENCMSG
  | .decmsg => .DECMSG

end Sys2Proof
end

