-- ==== Sys2Proof/WellFormed.lean ====
section
/-! DEFINITION. Which `Instr` terms are commands the encoding can express: every operand is legal by its type but CLR's
mask, whose bits 15:4 must be 0 (R53, R55 (c)). -/

namespace Sys2Proof

/-- CLR's `imm16` uses bits 3:0; bits 15:4 must be 0 (R53). -/
def clrMaskLegal (mask : BitVec 16) : Bool := mask.extractLsb' 4 12 == 0#12

/-- The term has an encoding (R52, R53). LDK with an index above 51 is legal as a word (R55). -/
def Instr.wellFormed : Instr → Bool
  | .clr mask => clrMaskLegal mask
  | .ldi _ _ => true
  | .add _ _ _ => true
  | .mul _ _ _ => true
  | .ainv _ _ => true
  | .minv _ _ => true
  | .kput _ => true
  | .kexp => true
  | .ldk _ _ => true
  | .encb => true
  | .decb => true
  | .iput _ => true
  | .pad => true
  | .ldblk _ => true
  | .sthex => true
  | .ldhex _ => true
  | .stblk => true
  | .unpad => true
  | .encmsg => true
  | .decmsg => true

end Sys2Proof
end

