-- ==== Sys2Proof/Decode.lean ====
section
/-! DEFINITION. The decoder of R57, total on every 32-bit word and rejecting by name (R55), and after it the encoder,
written from the format tables of R52. -/

namespace Sys2Proof

/-- The six formats of R52. -/
inductive Format where
  | Z | R | U | I | N | B
  deriving DecidableEq, Repr

/-- Why a word is no command: the three cases of R55. -/
inductive DecodeError where
  /-- R55 (a): the `op` field is none of the 20 opcodes. -/
  | unassignedOpcode
  /-- R55 (b): a reserved bit of the command's format is 1. -/
  | reservedBit
  /-- R55 (c): a CLR whose `imm16` has any of bits 15:4 set. -/
  | clrMask
  deriving DecidableEq, Repr

/-- One row of the opcode map (R54). -/
structure Row where
  mnemonic : Mnemonic
  op : BitVec 8
  format : Format
  deriving DecidableEq, Repr

/-- The word with 1 in `op` and in every reserved bit of the format (R52). -/
def Format.mask : Format → CommandWord
  | .Z => 0xFFFFFFFF#32
  | .R => 0xFF03FFFF#32
  | .U => 0xFF0FFFFF#32
  | .I => 0xFF3F0000#32
  | .N => 0xFFFF0000#32
  | .B => 0xFFFFFF00#32

/-- The opcode map (R54). -/
def opcodeTable : List Row :=
  [⟨.CLR, 0x01, .N⟩, ⟨.LDI, 0x10, .I⟩, ⟨.ADD, 0x11, .R⟩, ⟨.MUL, 0x12, .R⟩, ⟨.AINV, 0x13, .U⟩,
   ⟨.MINV, 0x14, .U⟩, ⟨.KPUT, 0x20, .B⟩, ⟨.KEXP, 0x21, .Z⟩, ⟨.LDK, 0x22, .I⟩, ⟨.ENCB, 0x30, .Z⟩] ++
  [⟨.DECB, 0x31, .Z⟩, ⟨.IPUT, 0x40, .B⟩, ⟨.PAD, 0x41, .Z⟩, ⟨.LDBLK, 0x42, .N⟩, ⟨.STHEX, 0x43, .Z⟩,
   ⟨.LDHEX, 0x44, .N⟩, ⟨.STBLK, 0x45, .Z⟩, ⟨.UNPAD, 0x46, .Z⟩, ⟨.ENCMSG, 0x50, .Z⟩, ⟨.DECMSG, 0x51, .Z⟩]

/-! The columns `match` and `mask` of the opcode map as R54 prints them; the decoder does not use them. -/

/-- The column `match` of R54. -/
def rowMatch : Mnemonic → CommandWord
  | .CLR => 0x01000000#32
  | .LDI => 0x10000000#32
  | .ADD => 0x11000000#32
  | .MUL => 0x12000000#32
  | .AINV => 0x13000000#32
  | .MINV => 0x14000000#32
  | .KPUT => 0x20000000#32
  | .KEXP => 0x21000000#32
  | .LDK => 0x22000000#32
  | .ENCB => 0x30000000#32
  | .DECB => 0x31000000#32
  | .IPUT => 0x40000000#32
  | .PAD => 0x41000000#32
  | .LDBLK => 0x42000000#32
  | .STHEX => 0x43000000#32
  | .LDHEX => 0x44000000#32
  | .STBLK => 0x45000000#32
  | .UNPAD => 0x46000000#32
  | .ENCMSG => 0x50000000#32
  | .DECMSG => 0x51000000#32

/-- The column `mask` of R54. -/
def rowMask : Mnemonic → CommandWord
  | .CLR => 0xFFFFFFF0#32
  | .LDI => 0xFF3F0000#32
  | .ADD => 0xFF03FFFF#32
  | .MUL => 0xFF03FFFF#32
  | .AINV => 0xFF0FFFFF#32
  | .MINV => 0xFF0FFFFF#32
  | .KPUT => 0xFFFFFF00#32
  | .KEXP => 0xFFFFFFFF#32
  | .LDK => 0xFF3F0000#32
  | .ENCB => 0xFFFFFFFF#32
  | .DECB => 0xFFFFFFFF#32
  | .IPUT => 0xFFFFFF00#32
  | .PAD => 0xFFFFFFFF#32
  | .LDBLK => 0xFFFF0000#32
  | .STHEX => 0xFFFFFFFF#32
  | .LDHEX => 0xFFFF0000#32
  | .STBLK => 0xFFFFFFFF#32
  | .UNPAD => 0xFFFFFFFF#32
  | .ENCMSG => 0xFFFFFFFF#32
  | .DECMSG => 0xFFFFFFFF#32

/-- The row with that opcode, if there is one (R57). -/
def rowOf (op : BitVec 8) : Option Row := opcodeTable.find? fun r => r.op == op

/-! The fields of a word (R51). -/

/-- `op` = w[31:24]. -/
def opField (w : CommandWord) : BitVec 8 := w.extractLsb' 24 8

/-- The register a 2-bit field selects: "Register fields select X[0..3] directly; all four values are legal" (R53). -/
def regOfBits (b : BitVec 2) : Reg :=
  if b = 0#2 then .A else if b = 1#2 then .B else if b = 2#2 then .C else .D

/-- `rd` = w[23:22]. -/
def rdField (w : CommandWord) : Reg := regOfBits (w.extractLsb' 22 2)

/-- `rs1` = w[21:20]. -/
def rs1Field (w : CommandWord) : Reg := regOfBits (w.extractLsb' 20 2)

/-- `rs2` = w[19:18]. -/
def rs2Field (w : CommandWord) : Reg := regOfBits (w.extractLsb' 18 2)

/-- `imm16` = w[15:0]. -/
def imm16Field (w : CommandWord) : BitVec 16 := w.extractLsb' 0 16

/-- `imm8` = w[7:0]. -/
def imm8Field (w : CommandWord) : BitVec 8 := w.extractLsb' 0 8

/-- The command of a row with the fields of the word: only the fields of its format carry meaning (R57). -/
def build (m : Mnemonic) (w : CommandWord) : Instr :=
  match m with
  | .CLR => .clr (imm16Field w)
  | .LDI => .ldi (rdField w) (imm16Field w)
  | .ADD => .add (rdField w) (rs1Field w) (rs2Field w)
  | .MUL => .mul (rdField w) (rs1Field w) (rs2Field w)
  | .AINV => .ainv (rdField w) (rs1Field w)
  | .MINV => .minv (rdField w) (rs1Field w)
  | .KPUT => .kput (imm8Field w)
  | .KEXP => .kexp
  | .LDK => .ldk (rdField w) (imm16Field w)
  | .ENCB => .encb
  | .DECB => .decb
  | .IPUT => .iput (imm8Field w)
  | .PAD => .pad
  | .LDBLK => .ldblk (imm16Field w)
  | .STHEX => .sthex
  | .LDHEX => .ldhex (imm16Field w)
  | .STBLK => .stblk
  | .UNPAD => .unpad
  | .ENCMSG => .encmsg
  | .DECMSG => .decmsg

/-- A field's value at its place in the word, `lo` being its lowest bit, and 0 everywhere else (R51). -/
def place {n : Nat} (v : BitVec n) (lo : Nat) : CommandWord := v.setWidth 32 <<< lo

/-- `op << 24` (R54). -/
def matchOf (op : BitVec 8) : CommandWord := place op 24

/-- The decoding algorithm of R57, its tests in that order. -/
def decode (w : CommandWord) : Except DecodeError Instr :=
  match rowOf (opField w) with
  | none => .error .unassignedOpcode
  | some row =>
    if w &&& row.format.mask ≠ matchOf row.op then .error .reservedBit
    else if row.mnemonic = .CLR ∧ clrMaskLegal (imm16Field w) = false then .error .clrMask
    else .ok (build row.mnemonic w)

/-- The instruction the decoder reads from a row's word of `nbits` bits; every bit above them is 0. -/
def decodeTableWord (nbits w : Nat) : Option Instr :=
  match decode (BitVec.ofNat 32 (w % 2 ^ nbits)) with
  | .ok i => some i
  | .error _ => none

/-! The encoder. -/

/-- The number of a register in a 2-bit field: A, B, C, D are 0, 1, 2, 3 (R8, R51). -/
def Reg.bits : Reg → BitVec 2
  | .A => 0#2
  | .B => 1#2
  | .C => 2#2
  | .D => 3#2

/-- Format Z: `op` in 31:24, 0 elsewhere (R52). -/
def encodeZ (op : BitVec 8) : CommandWord := place op 24

/-- Format R: `op` in 31:24, `rd` in 23:22, `rs1` in 21:20, `rs2` in 19:18, 0 elsewhere (R52). -/
def encodeR (op : BitVec 8) (rd rs1 rs2 : Reg) : CommandWord :=
  place op 24 ||| place rd.bits 22 ||| place rs1.bits 20 ||| place rs2.bits 18

/-- Format U: `op` in 31:24, `rd` in 23:22, `rs1` in 21:20, 0 elsewhere (R52). -/
def encodeU (op : BitVec 8) (rd rs1 : Reg) : CommandWord := place op 24 ||| place rd.bits 22 ||| place rs1.bits 20

/-- Format I: `op` in 31:24, `rd` in 23:22, `imm16` in 15:0, 0 elsewhere (R52). -/
def encodeI (op : BitVec 8) (rd : Reg) (imm : BitVec 16) : CommandWord := place op 24 ||| place rd.bits 22 ||| place imm 0

/-- Format N: `op` in 31:24, `imm16` in 15:0, 0 elsewhere (R52). -/
def encodeN (op : BitVec 8) (imm : BitVec 16) : CommandWord := place op 24 ||| place imm 0

/-- Format B: `op` in 31:24, `imm8` in 7:0, 0 elsewhere (R52). -/
def encodeB (op : BitVec 8) (imm : BitVec 8) : CommandWord := place op 24 ||| place imm 0

/-- The word of a well-formed command, from the format tables of R52 and the opcodes of R54. -/
def encode : Instr → CommandWord
  | .clr mask => encodeN 0x01 mask
  | .ldi rd imm => encodeI 0x10 rd imm
  | .add rd rs1 rs2 => encodeR 0x11 rd rs1 rs2
  | .mul rd rs1 rs2 => encodeR 0x12 rd rs1 rs2
  | .ainv rd rs1 => encodeU 0x13 rd rs1
  | .minv rd rs1 => encodeU 0x14 rd rs1
  | .kput imm => encodeB 0x20 imm
  | .kexp => encodeZ 0x21
  | .ldk rd index => encodeI 0x22 rd index
  | .encb => encodeZ 0x30
  | .decb => encodeZ 0x31
  | .iput imm => encodeB 0x40 imm
  | .pad => encodeZ 0x41
  | .ldblk n => encodeN 0x42 n
  | .sthex => encodeZ 0x43
  | .ldhex n => encodeN 0x44 n
  | .stblk => encodeZ 0x45
  | .unpad => encodeZ 0x46
  | .encmsg => encodeZ 0x50
  | .decmsg => encodeZ 0x51

end Sys2Proof
end

