-- ==== Sys2Proof/Machine/Arithmetic.lean ====
section
/-! DEFINITION. The four arithmetic primitives (R70 to R73), total functions of 16-bit values. The exclusive OR of R74 is
Lean's `^^^` on `Word`. -/

namespace Sys2Proof.Machine

/-- `add(x, y) = (x + y) mod 65536`; the carry is lost (R70). -/
def add (x y : Word) : Word := BitVec.ofNat 16 ((x.toNat + y.toNat) % 65536)

/-- What a 16-bit value stands for in a multiplication: 0 stands for 2^16 (R71, C4). -/
def mulValue (x : Word) : Nat := if x = 0 then 65536 else x.toNat

/-- A product back to 16 bits: 2^16 is folded to 0 (R71). -/
def mulFold (p : Nat) : Word := if p = 65536 then 0 else BitVec.ofNat 16 p

/-- `multiply(x, y)`: multiplication modulo 2^16+1 with the zero-mapping (R71). -/
def multiply (x y : Word) : Word := mulFold (mulValue x * mulValue y % 65537)

/-- `additive_inverse(x) = (65536 - x) mod 65536` (R72). -/
def ainv (x : Word) : Word := BitVec.ofNat 16 ((65536 - x.toNat) % 65536)

/-- `x^(2^(n+1) - 1) mod 65537` by `n` square-and-multiply steps (R82 leaves the method free; log 8). -/
def inversePower (x : Nat) : Nat → Nat
  | 0 => x
  | n + 1 => (fun r => r * r % 65537 * x % 65537) (inversePower x n)

/-- `multiplicative_inverse(x)`: 0 for 0, otherwise `x^65535 mod 65537` (R73), the exponent being `2^16 - 1`. -/
def minv (x : Word) : Word := if x = 0 then 0 else BitVec.ofNat 16 (inversePower x.toNat 15)

end Sys2Proof.Machine
end

