-- ==== Sys2Proof/Config.lean ====
section
/-! DEFINITION. The implementation parameter `CAP` (R6, D3) and the values the spec leaves free (R186, U1). -/

namespace Sys2Proof

/-- What an implementation fixes: the capacity of the input and of the output buffer. `CAP` is "a multiple of 16,
at least 16" (R6): it is counted here in units of 16 bytes above the least, so every `Config` is a legal one. -/
structure Config where
  capUnits : Nat
  deriving DecidableEq, Repr

/-- `CAP`, in bytes (R6). -/
def Config.cap (c : Config) : Nat := 16 * c.capUnits + 16

/-- The capacity of the machine that `State.reset` describes: a free value, the spec fixes none (U10, log 2). -/
opaque Config.platformUnits : Nat

/-- The configuration at `State.reset` (log 2). -/
def Config.platform : Config := ⟨Config.platformUnits⟩

/-- The `n`-th byte the random source gives where no answer is listed in `State.rng`: a free value, "the bytes obey no
law a proof may use" (R186, U1, log 3). -/
opaque Config.freeByte : Nat → Byte

end Sys2Proof
end

