-- ==== Sys2Proof/Machine/State.lean ====
section
/-! DEFINITION. The state of IDEA-CORE as plain data (10_state.md), the host's inputs and the random source's answers beside
it, the error codes' names, the reasons a step can stop, and the state after reset (R190). -/

namespace Sys2Proof.Machine

/-- A 64-bit Block: four unsigned 16-bit subblocks (R9, R10). -/
structure Block where
  a : Word
  b : Word
  c : Word
  d : Word
  deriving DecidableEq, Repr

/-- The RoundKeySchedule: exactly 52 unsigned 16-bit subkeys (R13). -/
abbrev Subkeys := Vector Word 52

/-- The three separate byte address spaces (R30). -/
inductive Space where
  | KB | IB | OB
  deriving DecidableEq, Repr

/-- The errors a command can raise (R170); their numbers are `ErrorCode.code`. -/
inductive ErrorCode where
  /-- `len(KB) = 0` in KEXP, ENCMSG, DECMSG (R171). -/
  | missingKey
  /-- `len(IB) = 0` in ENCMSG (R172). -/
  | emptyPlaintext
  /-- `len(IB) = 0` in DECMSG (R172). -/
  | emptyCiphertext
  /-- Text that is not hexadecimal or not whole groups, in DECMSG and LDHEX (R173). -/
  | invalidCiphertext
  /-- `KVALID = 0` in ENCB, DECB, LDK (R174). -/
  | noSchedule
  /-- A 17th key byte, in KPUT (R174). -/
  | keyOverflow
  /-- IB or OB would pass `CAP`, in IPUT, STHEX, STBLK, ENCMSG (R174). -/
  | bufferOverflow
  /-- A block or subkey index outside what exists, in LDBLK, LDHEX, LDK (R174). -/
  | indexRange
  /-- The word is no command (R175). -/
  | illegalCommand
  deriving DecidableEq, Repr

/-- What the host does next (R5): it gives a command word, or asserts reset between commands (R190). -/
inductive HostEvent where
  | command (w : CommandWord)
  | reset
  deriving DecidableEq, Repr

/-- The random source (R186): the answers it will give, the first first, and how many bytes were taken from it. Where
no answer is listed, the byte is the free value `Config.freeByte` (log 3). -/
structure Rng where
  answers : List Byte
  taken : Nat
  deriving DecidableEq, Repr

/-- The machine. `x` to `errlog` are the spec's whole state (10_state.md); `cfg`, `rng` and `port` are the model's own:
the parameter `CAP` (log 2), the random source (log 3) and the host's coming inputs (log 1). -/
structure State where
  /-- The data registers `X[0..3]` = A, B, C, D (R10). -/
  x : Block
  /-- The subkey registers `K[0..51]` (R13). -/
  k : Subkeys
  /-- `KVALID` (R14). -/
  kvalid : Bool
  /-- The key buffer (R16). -/
  kb : List Byte
  /-- The input buffer (R17). -/
  ib : List Byte
  /-- The output buffer (R17). -/
  ob : List Byte
  /-- `ERR`, the result code of the last command (R22). -/
  err : BitVec 4
  /-- `ERRLOG`, the sticky error bits (R23). -/
  errlog : BitVec 16
  /-- The implementation parameter `CAP` (R6). -/
  cfg : Config
  /-- The random source (R186). -/
  rng : Rng
  /-- The host's coming inputs, the next first (R5). -/
  port : List HostEvent
  deriving DecidableEq, Repr

/-- The reasons the machine can stop with a fault: none. "From every state, every command word and every draw give
exactly one next state" (93_implementation_defined.md, part 1); an error is a next state (R176, log 11). -/
inductive Fault where
  deriving DecidableEq, Repr

/-- The reasons a step can have no meaning. -/
inductive Refusal where
  /-- An instruction whose arm in `exec` is rejected by name. No arm is (log 11); safe. -/
  | notModelled (mnemonic : String)
  deriving DecidableEq, Repr

/-- The state after reset of a machine of configuration `c` (R190, R29); the model's own fields as logs 1 and 3 say. -/
def State.resetWith (c : Config) : State where
  x := ⟨0, 0, 0, 0⟩
  k := Vector.replicate 52 0
  kvalid := false
  kb := []
  ib := []
  ob := []
  err := 0
  errlog := 0
  cfg := c
  rng := ⟨[], 0⟩
  port := []

/-- The machine right after reset (R190), of the free capacity `Config.platform` (log 2). -/
def State.reset : State := State.resetWith Config.platform

end Sys2Proof.Machine
end

