-- ==== Sys2Proof/Machine/Flags.lean ====
section
/-! DEFINITION. The status registers (R22 to R24): the error codes' numbers, `ERR`, `ERRLOG`, and the lengths the host reads
as SR3 to SR5. There are no condition codes (R26). `KVALID` is written only with the whole schedule (Ops.lean). -/

namespace Sys2Proof.Machine

/-- The number of an error (R170). -/
def ErrorCode.code : ErrorCode → BitVec 4
  | .missingKey => 1#4
  | .emptyPlaintext => 2#4
  | .emptyCiphertext => 3#4
  | .invalidCiphertext => 4#4
  | .noSchedule => 5#4
  | .keyOverflow => 6#4
  | .bufferOverflow => 7#4
  | .indexRange => 8#4
  | .illegalCommand => 9#4

/-- The `ERRLOG` bit of a code: bit `c` (R23). -/
def errlogBit (c : BitVec 4) : BitVec 16 := 1#16 <<< c.toNat

/-- `ERR <- 0` and nothing else: a command's success (R22). -/
def State.succeed (s : State) : State := { s with err := 0#4 }

/-- `KLEN`, SR3 (R24). -/
def State.klen (s : State) : Nat := s.kb.length

/-- `ILEN`, SR4 (R24). -/
def State.ilen (s : State) : Nat := s.ib.length

/-- `OLEN`, SR5 (R24). -/
def State.olen (s : State) : Nat := s.ob.length

/-- `CAP` (R6). -/
def State.cap (s : State) : Nat := s.cfg.cap

end Sys2Proof.Machine
end

