-- ==== Sys2Proof/Machine/Operands.lean ====
section
/-! DEFINITION. The operand forms: data registers, the Block they hold, subkey indices, immediates, block indices, and the
bytes of a 16-bit value. -/

namespace Sys2Proof.Machine

/-- Subblock of a register number (R10). -/
def Block.get (p : Block) : Reg → Word
  | .A => p.a
  | .B => p.b
  | .C => p.c
  | .D => p.d

/-- The Block with one register replaced. -/
def Block.set (p : Block) (r : Reg) (v : Word) : Block :=
  match r with
  | .A => { p with a := v }
  | .B => { p with b := v }
  | .C => { p with c := v }
  | .D => { p with d := v }

/-- `X[i]` (R8). -/
def State.getX (s : State) (r : Reg) : Word := s.x.get r

/-- `X[i] <- v` (R8); no register is hardwired (R10). -/
def State.setX (s : State) (r : Reg) (v : Word) : State := { s with x := s.x.set r v }

/-- `X[0] <- a; X[1] <- b; X[2] <- c; X[3] <- d`: the four data registers at once. -/
def State.setBlock (s : State) (p : Block) : State := { s with x := p }

/-- `K[i]`, or nothing for an index above 51 (R13, R97). -/
def State.subkey (s : State) (i : Nat) : Option Word := s.k[i]?

/-- An immediate "is an unsigned integer used as it stands" (R53). -/
def immNat (imm : BitVec 16) : Nat := imm.toNat

/-- The byte address of 8-byte block `n`, on unbounded integers (R36, R53). -/
def blockAddress (n : Nat) : Nat := 8 * n

/-- The byte address of 16-character group `n`, on unbounded integers (R36, R53). -/
def groupAddress (n : Nat) : Nat := 16 * n

/-- Bit `i` of CLR's mask (R161). -/
def maskBit (mask : BitVec 16) (i : Nat) : Bool := mask.getLsbD i

/-- The byte pair `hi || lo` as a 16-bit value, the first byte most significant (R31, R32). -/
def wordOfBytes (hi lo : Byte) : Word := BitVec.ofNat 16 (256 * hi.toNat + lo.toNat)

/-- `v[15:8]`. -/
def highByte (v : Word) : Byte := v.extractLsb' 8 8

/-- `v[7:0]`. -/
def lowByte (v : Word) : Byte := v.extractLsb' 0 8

end Sys2Proof.Machine
end

