-- ==== Sys2Proof/Machine/Ops.lean ====
section
/-! DEFINITION. The named operations over the buffers (R8, R30), the random source (R186), the key material (R13, R14),
raising an error as ONE operation (R176) and finishing a command beside it (R177), and the host's reset event (R190). -/

namespace Sys2Proof.Machine

/-! ## Buffers -/

/-- The bytes of one address space, byte `i` at address `i` (R30). -/
def State.buffer (s : State) : Space → List Byte
  | .KB => s.kb
  | .IB => s.ib
  | .OB => s.ob

/-- The state with one address space replaced. -/
def State.setBuffer (s : State) (sp : Space) (bytes : List Byte) : State :=
  match sp with
  | .KB => { s with kb := bytes }
  | .IB => { s with ib := bytes }
  | .OB => { s with ob := bytes }

/-- The most bytes an address space can hold (R16, R17). -/
def State.capacity (s : State) : Space → Nat
  | .KB => 16
  | .IB => s.cap
  | .OB => s.cap

/-- The byte at an address, or nothing: "A byte beyond a buffer's length does not exist" (R18). -/
def State.readByte (s : State) (sp : Space) (address : Nat) : Option Byte := (s.buffer sp)[address]?

/-- `MemRead(S, addr, n)` (R8). -/
def State.memRead (s : State) (sp : Space) (address n : Nat) : List Byte := ((s.buffer sp).drop address).take n

/-- `MemAppend(S, bytes)` (R8). -/
def State.memAppend (s : State) (sp : Space) (bytes : List Byte) : State := s.setBuffer sp (s.buffer sp ++ bytes)

/-- `MemTrunc(S, n)` (R8). -/
def State.memTrunc (s : State) (sp : Space) (n : Nat) : State := s.setBuffer sp ((s.buffer sp).take n)

/-- One address space as pairs of address and byte, addresses rising from 0. -/
def State.cells (s : State) (sp : Space) : List Host.Cell := (s.buffer sp).zipIdx.map fun p => (p.2, p.1)

/-- The memories are well formed: no buffer is longer than its capacity (R16, R17). A list of bytes indexed from 0 is
already one canonical form (log 5). -/
def Memory.wf (s : State) : Bool :=
  s.kb.length ≤ s.capacity .KB && s.ib.length ≤ s.capacity .IB && s.ob.length ≤ s.capacity .OB

/-! ## The random source -/

/-- Take one filler byte: the next listed answer, or a free byte (R186, log 3). -/
def State.drawByte (s : State) : Byte × State :=
  match s.rng.answers with
  | b :: rest => (b, { s with rng := ⟨rest, s.rng.taken + 1⟩ })
  | [] => (Config.freeByte s.rng.taken, { s with rng := ⟨[], s.rng.taken + 1⟩ })

/-- `draw(n)`: the next `n` bytes, in order (R8, R186). -/
def State.draw (s : State) : Nat → List Byte × State
  | 0 => ([], s)
  | n + 1 => (s.drawByte.1 :: (s.drawByte.2.draw n).1, (s.drawByte.2.draw n).2)

/-! ## Key material -/

/-- `K[i] <- S[i] for i = 0..51; KVALID <- 1` (R96). -/
def State.loadSchedule (s : State) (keys : Subkeys) : State := { s with k := keys, kvalid := true }

/-- `K[i] <- 0 for i = 0..51; KVALID <- 0` (R95, R161). -/
def State.dropSchedule (s : State) : State := { s with k := Vector.replicate 52 0#16, kvalid := false }

/-- `MemTrunc(KB, 0)` and the schedule dropped (R156, R161). -/
def State.wipeKey (s : State) : State := (s.memTrunc .KB 0).dropSchedule

/-- The end of ENCMSG and DECMSG: key and message are consumed (R156, R158). -/
def State.consume (s : State) : State := s.wipeKey.memTrunc .IB 0

/-! ## Errors and completion -/

/-- What a command's steps give: the state they leave, `ERR` not yet written, or the error they raise. -/
abbrev Steps := Except ErrorCode State

/-- Error entry: `ERR <- c; ERRLOG[c] <- 1`, and nothing else changes (R176). -/
def State.raise (s : State) (e : ErrorCode) : State :=
  { s with err := e.code, errlog := s.errlog ||| errlogBit e.code }

/-- How a command ends: with `ERR <- 0` on what its steps leave, or with the error raised on the state the command
started from, so that a failed command changes only `ERR` and `ERRLOG` (R176, R177). -/
def State.finish (s : State) : Steps → Host.Outcome State Fault Refusal
  | .ok t => .next t.succeed
  | .error e => .next (s.raise e)

/-- `for n = 0 .. count-1, in increasing order: body n` (R156, R158); an error ends the loop. -/
def forBlocks (body : Nat → State → Steps) : Nat → State → Steps
  | 0, s => .ok s
  | n + 1, s => (forBlocks body n s).bind (body n)

/-! ## The host's inputs -/

/-- A word that is no command: IllegalCommand, and "The engine does nothing else with the word" (R175). -/
def State.illegalWord (s : State) : State := s.raise .illegalCommand

/-- Reset between commands: every piece of the spec's state takes its reset value (R190); the capacity, the random source
and the host's further inputs are not the engine's and stay (log 4). -/
def State.resetEvent (s : State) : State := { State.resetWith s.cfg with rng := s.rng, port := s.port }

/-- A command word as the host's very next input. -/
def State.pushCommand (s : State) (w : CommandWord) : State := { s with port := .command w :: s.port }

end Sys2Proof.Machine
end

