-- ==== Sys2Proof/Machine/Arith.lean ====
section
/-! DEFINITION. The register commands LDI, ADD, MUL, AINV, MINV (41_arith.md R76 to R81): sources are read before the
destination is written, `ERR <- 0`, no error. -/

namespace Sys2Proof.Machine

/-- LDI rd, imm16 (R77). -/
def execLdi (rd : Reg) (imm : BitVec 16) (s : State) : Host.Outcome State Fault Refusal :=
  s.finish (.ok (s.setX rd imm))

/-- ADD rd, rs1, rs2 (R78). -/
def execAdd (rd rs1 rs2 : Reg) (s : State) : Host.Outcome State Fault Refusal :=
  s.finish (.ok (s.setX rd (add (s.getX rs1) (s.getX rs2))))

/-- MUL rd, rs1, rs2 (R79). -/
def execMul (rd rs1 rs2 : Reg) (s : State) : Host.Outcome State Fault Refusal :=
  s.finish (.ok (s.setX rd (multiply (s.getX rs1) (s.getX rs2))))

/-- AINV rd, rs1 (R80). -/
def execAinv (rd rs1 : Reg) (s : State) : Host.Outcome State Fault Refusal :=
  s.finish (.ok (s.setX rd (ainv (s.getX rs1))))

/-- MINV rd, rs1 (R81). -/
def execMinv (rd rs1 : Reg) (s : State) : Host.Outcome State Fault Refusal :=
  s.finish (.ok (s.setX rd (minv (s.getX rs1))))

end Sys2Proof.Machine
end

