-- ==== Sys2Proof/Machine/CodecFns.lean ====
section
/-! DEFINITION. The message codec's functions (R130 to R136): hexadecimal characters and text, padding and truncation,
blocks and bytes. -/

namespace Sys2Proof.Machine

/-- `HexChar(v)`: upper case (R130, R39). -/
def hexChar (v : Nibble) : Byte := if v.toNat ≤ 9 then BitVec.ofNat 8 (0x30 + v.toNat) else BitVec.ofNat 8 (0x37 + v.toNat)

/-- `HexVal(c)`, in either case; nothing for any other byte (R130, R39). -/
def hexVal (c : Byte) : Option Nibble :=
  if 0x30 ≤ c.toNat ∧ c.toNat ≤ 0x39 then some (BitVec.ofNat 4 (c.toNat - 0x30))
  else if 0x41 ≤ c.toNat ∧ c.toNat ≤ 0x46 then some (BitVec.ofNat 4 (c.toNat - 0x37))
  else if 0x61 ≤ c.toNat ∧ c.toNat ≤ 0x66 then some (BitVec.ofNat 4 (c.toNat - 0x57))
  else none

/-- The message's sentinel byte (R131). -/
def sentinel : Byte := 0x01#8

/-- The number of filler bytes for a message of `len` bytes: `7 - m`, or none when `m = len mod 8` is 0 (R131). -/
def fillerCount (len : Nat) : Nat := if len % 8 = 0 then 0 else 7 - len % 8

/-- The padded length of a message of `len` bytes: the next multiple of 8 at or above it (R131, R156). -/
def paddedLength (len : Nat) : Nat := if len % 8 = 0 then len else len + 8 - len % 8

/-- `PadMsg(buf, rnd)` (R131). -/
def padMsg (buf rnd : List Byte) : List Byte := if buf.length % 8 = 0 then buf else buf ++ [sentinel] ++ rnd

/-- `Unpad(buf)`: the bytes before the first sentinel, or all of them (R134). -/
def unpad (buf : List Byte) : List Byte := buf.takeWhile fun b => b != sentinel

/-- `SplitBlock(buf, n)`, for a block wholly inside the buffer (R132, R32). -/
def splitBlock (buf : List Byte) (n : Nat) (h : 8 * n + 8 ≤ buf.length) : Block where
  a := wordOfBytes (buf[8 * n]'(by omega)) (buf[8 * n + 1]'(by omega))
  b := wordOfBytes (buf[8 * n + 2]'(by omega)) (buf[8 * n + 3]'(by omega))
  c := wordOfBytes (buf[8 * n + 4]'(by omega)) (buf[8 * n + 5]'(by omega))
  d := wordOfBytes (buf[8 * n + 6]'(by omega)) (buf[8 * n + 7]'(by omega))

/-- `JoinBlock(W, X, Y, Z)`: the 8 raw bytes (R132, R32). -/
def joinBlock (p : Block) : List Byte :=
  [highByte p.a, lowByte p.a, highByte p.b, lowByte p.b, highByte p.c, lowByte p.c, highByte p.d, lowByte p.d]

/-- The four hexadecimal characters of a subblock, most significant digit first (R33). -/
def wordHex (v : Word) : List Byte :=
  [hexChar (v.extractLsb' 12 4), hexChar (v.extractLsb' 8 4), hexChar (v.extractLsb' 4 4), hexChar (v.extractLsb' 0 4)]

/-- `ToHex(W, X, Y, Z)`: the 16-character group (R133, R33). -/
def toHex (p : Block) : List Byte := wordHex p.a ++ wordHex p.b ++ wordHex p.c ++ wordHex p.d

/-- The subblock four characters stand for: `v0 * 4096 + v1 * 256 + v2 * 16 + v3`, when each has a value (R133). -/
def parseWord : List Byte → Option Word
  | [c0, c1, c2, c3] => do
    let v0 ← hexVal c0
    let v1 ← hexVal c1
    let v2 ← hexVal c2
    let v3 ← hexVal c3
    some (BitVec.ofNat 16 (v0.toNat * 4096 + v1.toNat * 256 + v2.toNat * 16 + v3.toNat))
  | _ => none

/-- `ParseHex(chars)`, for a 16-byte list of hexadecimal characters; nothing otherwise (R133). -/
def parseHex (chars : List Byte) : Option Block := do
  let a ← parseWord (chars.take 4)
  let b ← parseWord ((chars.drop 4).take 4)
  let c ← parseWord ((chars.drop 8).take 4)
  let d ← parseWord (chars.drop 12)
  some ⟨a, b, c, d⟩

/-- Every byte is a hexadecimal character (R158). -/
def allHex (chars : List Byte) : Bool := chars.all fun c => (hexVal c).isSome

/-! The pipelines of R136, as functions. -/

/-- The Blocks of a byte list, in order; a short last group has none (R132, R136). -/
def splitBlocks (buf : List Byte) : List Block :=
  (List.finRange (buf.length / 8)).map fun n => splitBlock buf n.val (by omega)

/-- `EncodeBlocks(msg, rnd)` (R136). -/
def encodeBlocks (msg rnd : List Byte) : List Block := splitBlocks (padMsg msg rnd)

/-- `Serialize(blocks)` (R136). -/
def serialize (blocks : List Block) : List Byte := blocks.flatMap toHex

/-- `Deserialize(chars)`, for whole groups of hexadecimal characters; nothing where a group has no Block (R136). -/
def deserialize (chars : List Byte) : Option (List Block) :=
  (List.range (chars.length / 16)).mapM fun n => parseHex ((chars.drop (16 * n)).take 16)

/-- `DecodeBytes(blocks)` (R136). -/
def decodeBytes (blocks : List Block) : List Byte := unpad (blocks.flatMap joinBlock)

end Sys2Proof.Machine
end

