-- ==== Sys2Proof/Machine/Codec.lean ====
section
/-! DEFINITION. The message codec's commands IPUT, PAD, LDBLK, STHEX, LDHEX, STBLK, UNPAD (45_codec.md R137 to R144). -/

namespace Sys2Proof.Machine

/-- The steps of IPUT (R137). -/
def iputSteps (imm : Byte) (s : State) : Steps :=
  if s.ib.length = s.cap then .error .bufferOverflow else .ok (s.memAppend .IB [imm])

/-- The steps of PAD: the sentinel and the drawn filler, or nothing and no draw when `m = 0` (R138). -/
def padSteps (s : State) : Steps :=
  if s.ib.length % 8 = 0 then .ok s
  else .ok ((s.draw (7 - s.ib.length % 8)).2.memAppend .IB (sentinel :: (s.draw (7 - s.ib.length % 8)).1))

/-- The steps of LDBLK `n` (R139). -/
def ldblkSteps (n : Nat) (s : State) : Steps :=
  if h : blockAddress n + 8 ≤ s.ib.length then .ok (s.setBlock (splitBlock s.ib n h)) else .error .indexRange

/-- The steps of STHEX (R140). -/
def sthexSteps (s : State) : Steps :=
  if s.cap < s.ob.length + 16 then .error .bufferOverflow else .ok (s.memAppend .OB (toHex s.x))

/-- The steps of LDHEX `n`: IndexRange, then InvalidCiphertext, then the load (R141, R178). -/
def ldhexSteps (n : Nat) (s : State) : Steps :=
  if s.ib.length < groupAddress n + 16 then .error .indexRange
  else match parseHex (s.memRead .IB (groupAddress n) 16) with
    | none => .error .invalidCiphertext
    | some p => .ok (s.setBlock p)

/-- The steps of STBLK (R142). -/
def stblkSteps (s : State) : Steps :=
  if s.cap < s.ob.length + 8 then .error .bufferOverflow else .ok (s.memAppend .OB (joinBlock s.x))

/-- The steps of UNPAD (R143). -/
def unpadSteps (s : State) : Steps := .ok (s.memTrunc .OB (unpad s.ob).length)

/-- IPUT imm8 (R137). -/
def execIput (imm : BitVec 8) (s : State) : Host.Outcome State Fault Refusal := s.finish (iputSteps imm s)

/-- PAD (R138). -/
def execPad (s : State) : Host.Outcome State Fault Refusal := s.finish (padSteps s)

/-- LDBLK n (R139). -/
def execLdblk (n : BitVec 16) (s : State) : Host.Outcome State Fault Refusal := s.finish (ldblkSteps (immNat n) s)

/-- STHEX (R140). -/
def execSthex (s : State) : Host.Outcome State Fault Refusal := s.finish (sthexSteps s)

/-- LDHEX n (R141). -/
def execLdhex (n : BitVec 16) (s : State) : Host.Outcome State Fault Refusal := s.finish (ldhexSteps (immNat n) s)

/-- STBLK (R142). -/
def execStblk (s : State) : Host.Outcome State Fault Refusal := s.finish (stblkSteps s)

/-- UNPAD (R143). -/
def execUnpad (s : State) : Host.Outcome State Fault Refusal := s.finish (unpadSteps s)

end Sys2Proof.Machine
end

