-- ==== Sys2Proof/Machine/Schedule.lean ====
section
/-! DEFINITION. The key scheduler's functions: PadKey (R91), the 128-bit register (R31), its rotation and chunks (R92), the
schedule of 52 subkeys (R93). -/

namespace Sys2Proof.Machine

/-- `PadKey(kb) = kb ++ [0x01] * (16 - len(kb))`, for 1 to 16 bytes (R91). -/
def padKey (kb : List Byte) : List Byte := kb ++ List.replicate (16 - kb.length) 0x01#8

/-- `P[0] || P[1] || ...`, the first byte most significant, in 128 bits (R31). -/
def keyRegister (bytes : List Byte) : KeyRegister :=
  BitVec.ofNat 128 (bytes.foldl (fun n b => n * 256 + b.toNat) 0)

/-- `rotl128(R, s)`, for `0 <= s < 128`: the cyclic rotation left (R92). -/
def rotl128 (r : KeyRegister) (s : Nat) : KeyRegister :=
  BitVec.ofNat 128 (r.toNat * 2 ^ s % 2 ^ 128 + r.toNat / 2 ^ (128 - s))

/-- `chunk(R, j) = R[127-16j : 112-16j]`, for `j` in 0..7: chunk 0 is the most significant (R31, R92). -/
def chunk (r : KeyRegister) (j : Nat) : Word := r.extractLsb' (112 - 16 * j) 16

/-- `R_m`: the register after `m` rotations by 25 bits (R93). -/
def rotatedKey (kr : KeyRegister) : Nat → KeyRegister
  | 0 => kr
  | m + 1 => rotl128 (rotatedKey kr m) 25

/-- The eight chunks of one split, in order (R93). -/
def splitKey (r : KeyRegister) : List Word := [0, 1, 2, 3, 4, 5, 6, 7].map (chunk r)

/-- The 56 chunks of the seven splits, cut to the first 52 (R93). -/
def scheduleList (kr : KeyRegister) : List Word :=
  ([0, 1, 2, 3, 4, 5, 6].flatMap fun m => splitKey (rotatedKey kr m)).take 52

/-- `Schedule(KR)` (R93). -/
def schedule (kr : KeyRegister) : Subkeys := ⟨(scheduleList kr).toArray, by simp [scheduleList, splitKey]⟩

/-- `Schedule(PadKey(KB))`, the subkeys of key bytes (R96). -/
def keySchedule (kb : List Byte) : Subkeys := schedule (keyRegister (padKey kb))

end Sys2Proof.Machine
end

