-- ==== Sys2Proof/Machine/KeySched.lean ====
section
/-! DEFINITION. The key scheduler's commands KPUT, KEXP, LDK (42_keysched.md R95 to R97). -/

namespace Sys2Proof.Machine

/-- The steps of KPUT: append a key byte, and drop the schedule, which no longer belongs to the bytes in KB (R95). -/
def kputSteps (imm : Byte) (s : State) : Steps :=
  if s.kb.length = 16 then .error .keyOverflow else .ok (s.memAppend .KB [imm]).dropSchedule

/-- The steps of KEXP: `K <- Schedule(PadKey(KB)); KVALID <- 1`; KB is unchanged (R96). -/
def kexpSteps (s : State) : Steps :=
  if s.kb.length = 0 then .error .missingKey else .ok (s.loadSchedule (keySchedule s.kb))

/-- The steps of LDK: NoSchedule, then IndexRange, then the copy (R97, R178). -/
def ldkSteps (rd : Reg) (index : Nat) (s : State) : Steps :=
  if s.kvalid = false then .error .noSchedule
  else match s.subkey index with
    | none => .error .indexRange
    | some v => .ok (s.setX rd v)

/-- KPUT imm8 (R95). -/
def execKput (imm : BitVec 8) (s : State) : Host.Outcome State Fault Refusal := s.finish (kputSteps imm s)

/-- KEXP (R96). -/
def execKexp (s : State) : Host.Outcome State Fault Refusal := s.finish (kexpSteps s)

/-- LDK rd, index (R97). -/
def execLdk (rd : Reg) (index : BitVec 16) (s : State) : Host.Outcome State Fault Refusal :=
  s.finish (ldkSteps rd (immNat index) s)

end Sys2Proof.Machine
end

