-- ==== Sys2Proof/Machine/Rounds.lean ====
section
/-! DEFINITION. The round engine's functions: the round (R106), the output transformation (R107), encryption of a Block (R108),
the decryption subkeys (R116 to R119), decryption of a Block (R120), the decryption schedule (R123). -/

namespace Sys2Proof.Machine

/-- The window of six subkeys one round uses (R105). -/
structure RoundKeys where
  k0 : Word
  k1 : Word
  k2 : Word
  k3 : Word
  k4 : Word
  k5 : Word
  deriving DecidableEq, Repr

/-- The four subkeys of an output transformation (R107). -/
structure OutputKeys where
  k0 : Word
  k1 : Word
  k2 : Word
  k3 : Word
  deriving DecidableEq, Repr

/-- `Round` (R106): the four outer operations, the MA-box, the XORs and the swap of the two middle subblocks. -/
def applyRound (p : Block) (ks : RoundKeys) : Block :=
  let a := multiply p.a ks.k0
  let b := add p.b ks.k1
  let c := add p.c ks.k2
  let d := multiply p.d ks.k3
  let e := a ^^^ c
  let f := b ^^^ d
  let g := multiply e ks.k4
  let h := add f g
  let i := multiply h ks.k5
  let j := add g i
  ⟨a ^^^ i, c ^^^ i, b ^^^ j, d ^^^ j⟩

/-- `OutT` (R107): X consumes the third subblock, Y the second. -/
def outT (p : Block) (ks : OutputKeys) : Block :=
  ⟨multiply p.a ks.k0, add p.c ks.k1, add p.b ks.k2, multiply p.d ks.k3⟩

/-- The rounds' indices, in order. -/
def roundIndices : List (Fin 8) := [0, 1, 2, 3, 4, 5, 6, 7]

/-- The subkeys of encryption round `r`: `K[6r .. 6r+5]` (R105). -/
def encKeys (k : Subkeys) (r : Fin 8) : RoundKeys where
  k0 := k[6 * r.val]
  k1 := k[6 * r.val + 1]
  k2 := k[6 * r.val + 2]
  k3 := k[6 * r.val + 3]
  k4 := k[6 * r.val + 4]
  k5 := k[6 * r.val + 5]

/-- The subkeys of the output transformation: `K[48..51]` (R105). -/
def encOutKeys (k : Subkeys) : OutputKeys := ⟨k[48], k[49], k[50], k[51]⟩

/-- `EncBlock(K, P)` (R108). -/
def encBlock (k : Subkeys) (p : Block) : Block :=
  outT (roundIndices.foldl (fun q r => applyRound q (encKeys k r)) p) (encOutKeys k)

/-- The position `rnd = 51 - 6t` of decryption round `t` (R116). -/
def decPosition (t : Fin 8) : Nat := 51 - 6 * t.val

/-- `DecKeys(K, t)`: the outer subkeys in the order of R117 for `t = 0` and of R118, with b's and c's exchanged, for the
later rounds; the MA-box subkeys `K[rnd-5]`, `K[rnd-4]` not inverted (R116). -/
def decKeys (k : Subkeys) (t : Fin 8) : RoundKeys :=
  if t = 0 then
    { k0 := minv k[48], k1 := ainv k[49], k2 := ainv k[50], k3 := minv k[51], k4 := k[46], k5 := k[47] }
  else
    { k0 := minv (k[decPosition t - 3]'(by simp only [decPosition]; omega))
      k1 := ainv (k[decPosition t - 1]'(by simp only [decPosition]; omega))
      k2 := ainv (k[decPosition t - 2]'(by simp only [decPosition]; omega))
      k3 := minv (k[decPosition t]'(by simp only [decPosition]; omega))
      k4 := k[decPosition t - 5]'(by simp only [decPosition]; omega)
      k5 := k[decPosition t - 4]'(by simp only [decPosition]; omega) }

/-- The subkeys of the final transformation of decryption (R119). -/
def decOutKeys (k : Subkeys) : OutputKeys := ⟨minv k[0], ainv k[1], ainv k[2], minv k[3]⟩

/-- `DecBlock(K, P)` (R120). -/
def decBlock (k : Subkeys) (p : Block) : Block :=
  outT (roundIndices.foldl (fun q t => applyRound q (decKeys k t)) p) (decOutKeys k)

/-- A window of six subkeys as a list. -/
def RoundKeys.toList (ks : RoundKeys) : List Word := [ks.k0, ks.k1, ks.k2, ks.k3, ks.k4, ks.k5]

/-- The four output subkeys as a list. -/
def OutputKeys.toList (ks : OutputKeys) : List Word := [ks.k0, ks.k1, ks.k2, ks.k3]

/-- The decryption schedule `DK(K)` as a list of 52 values (R123); the engine does not store it. -/
def decScheduleList (k : Subkeys) : List Word :=
  (roundIndices.flatMap fun t => (decKeys k t).toList) ++ (decOutKeys k).toList

/-- The decryption schedule `DK(K)` (R123). -/
def decSchedule (k : Subkeys) : Subkeys :=
  ⟨(decScheduleList k).toArray, by simp [decScheduleList, roundIndices, RoundKeys.toList, OutputKeys.toList]⟩

end Sys2Proof.Machine
end

