-- ==== Sys2Proof/Machine/RoundEngine.lean ====
section
/-! DEFINITION. The round engine's commands ENCB (43_round_encrypt.md R109) and DECB (44_round_decrypt.md R121). -/

namespace Sys2Proof.Machine

/-- The steps of ENCB (R109). -/
def encbSteps (s : State) : Steps :=
  if s.kvalid = false then .error .noSchedule else .ok (s.setBlock (encBlock s.k s.x))

/-- The steps of DECB (R121). -/
def decbSteps (s : State) : Steps :=
  if s.kvalid = false then .error .noSchedule else .ok (s.setBlock (decBlock s.k s.x))

/-- ENCB (R109). -/
def execEncb (s : State) : Host.Outcome State Fault Refusal := s.finish (encbSteps s)

/-- DECB (R121). -/
def execDecb (s : State) : Host.Outcome State Fault Refusal := s.finish (decbSteps s)

end Sys2Proof.Machine
end

