-- ==== Sys2Proof/Machine/Message.lean ====
section
/-! DEFINITION. The message-level commands ENCMSG (R156), DECMSG (R158) and CLR (R161) of 46_message.md: the message
commands run the steps of the commands they name, in the order of their pseudocode. -/

namespace Sys2Proof.Machine

/-- One turn of ENCMSG's loop: the steps of LDBLK `n`, ENCB, STHEX (R156). -/
def encBlockSteps (n : Nat) (s : State) : Steps := do
  let s ← ldblkSteps n s
  let s ← encbSteps s
  sthexSteps s

/-- ENCMSG's work, its checks having passed (R156). -/
def encmsgWork (s : State) : Steps := do
  let s1 ← kexpSteps s
  let s2 ← padSteps s1
  let s3 ← forBlocks encBlockSteps (paddedLength s.ib.length / 8) (s2.memTrunc .OB 0)
  .ok s3.consume

/-- The steps of ENCMSG: MissingKey, EmptyPlaintext, BufferOverflow in that order, then the work (R156, R178). -/
def encmsgSteps (s : State) : Steps :=
  if s.kb.length = 0 then .error .missingKey
  else if s.ib.length = 0 then .error .emptyPlaintext
  else if s.cap < 2 * paddedLength s.ib.length then .error .bufferOverflow
  else encmsgWork s

/-- One turn of DECMSG's loop: the steps of LDHEX `n`, DECB, STBLK (R158). -/
def decBlockSteps (n : Nat) (s : State) : Steps := do
  let s ← ldhexSteps n s
  let s ← decbSteps s
  stblkSteps s

/-- DECMSG's work, its checks having passed (R158). -/
def decmsgWork (s : State) : Steps := do
  let s1 ← kexpSteps s
  let s2 ← forBlocks decBlockSteps (s.ib.length / 16) (s1.memTrunc .OB 0)
  let s3 ← unpadSteps s2
  .ok s3.consume

/-- The steps of DECMSG: MissingKey, EmptyCiphertext, InvalidCiphertext in that order, then the work (R158, R178). -/
def decmsgSteps (s : State) : Steps :=
  if s.kb.length = 0 then .error .missingKey
  else if s.ib.length = 0 then .error .emptyCiphertext
  else if s.ib.length % 16 ≠ 0 ∨ allHex s.ib = false then .error .invalidCiphertext
  else decmsgWork s

/-- The steps of CLR, mask bit by mask bit (R161). -/
def clrSteps (mask : BitVec 16) (s : State) : Steps :=
  let s1 := if maskBit mask 0 then s.wipeKey else s
  let s2 := if maskBit mask 1 then s1.memTrunc .IB 0 else s1
  let s3 := if maskBit mask 2 then s2.memTrunc .OB 0 else s2
  .ok (if maskBit mask 3 then s3.setBlock ⟨0, 0, 0, 0⟩ else s3)

/-- ENCMSG (R156). -/
def execEncmsg (s : State) : Host.Outcome State Fault Refusal := s.finish (encmsgSteps s)

/-- DECMSG (R158). -/
def execDecmsg (s : State) : Host.Outcome State Fault Refusal := s.finish (decmsgSteps s)

/-- CLR mask (R161). -/
def execClr (mask : BitVec 16) (s : State) : Host.Outcome State Fault Refusal := s.finish (clrSteps mask s)

end Sys2Proof.Machine
end

