-- ==== Sys2Proof/Machine/Dispatch.lean ====
section
/-! DEFINITION. Dispatch: one arm per command, each one call of its meaning. -/

namespace Sys2Proof.Machine

def exec (i : Instr) (s : State) : Host.Outcome State Fault Refusal :=
  match i with
  | .clr mask => Sys2Proof.Machine.execClr mask s
  | .ldi rd imm => Sys2Proof.Machine.execLdi rd imm s
  | .add rd rs1 rs2 => Sys2Proof.Machine.execAdd rd rs1 rs2 s
  | .mul rd rs1 rs2 => Sys2Proof.Machine.execMul rd rs1 rs2 s
  | .ainv rd rs1 => Sys2Proof.Machine.execAinv rd rs1 s
  | .minv rd rs1 => Sys2Proof.Machine.execMinv rd rs1 s
  | .kput imm => Sys2Proof.Machine.execKput imm s
  | .kexp => Sys2Proof.Machine.execKexp s
  | .ldk rd index => Sys2Proof.Machine.execLdk rd index s
  | .encb => Sys2Proof.Machine.execEncb s
  | .decb => Sys2Proof.Machine.execDecb s
  | .iput imm => Sys2Proof.Machine.execIput imm s
  | .pad => Sys2Proof.Machine.execPad s
  | .ldblk n => Sys2Proof.Machine.execLdblk n s
  | .sthex => Sys2Proof.Machine.execSthex s
  | .ldhex n => Sys2Proof.Machine.execLdhex n s
  | .stblk => Sys2Proof.Machine.execStblk s
  | .unpad => Sys2Proof.Machine.execUnpad s
  | .encmsg => Sys2Proof.Machine.execEncmsg s
  | .decmsg => Sys2Proof.Machine.execDecmsg s

end Sys2Proof.Machine
end

