-- ==== Sys2Proof/Machine/Command.lean ====
section
/-! DEFINITION. One command word: "A model is a function from (state, command word, draws) to state" (R40). -/

namespace Sys2Proof.Machine

/-- The engine's whole answer to a command word: the command it decodes to, or IllegalCommand (R40, R55, R57, R175). -/
def execWord (w : CommandWord) (s : State) : Host.Outcome State Fault Refusal :=
  match decode w with
  | .ok i => exec i s
  | .error _ => .next s.illegalWord

end Sys2Proof.Machine
end

