-- ==== Sys2Proof/Machine/Step.lean ====
section
/-! DEFINITION. One step: the host's next input is taken (R5, R40). A command word is run, reset resets (R190); with no input the engine waits and nothing changes (log 1). -/

namespace Sys2Proof.Machine

/-- One step of the machine: the whole of one host input, atomically (R40). -/
def step (s : State) : Host.Outcome State Fault Refusal :=
  match s.port with
  | [] => .next s
  | .reset :: rest => .next (State.resetEvent { s with port := rest })
  | .command w :: rest => execWord w { s with port := rest }

/-- The state in which the host's very next input is that command word (every bit above `nbits` 0), so that the next step
runs it; nothing else changes (log 1). -/
def State.withFetchWord (s : State) (nbits w : Nat) : State := s.pushCommand (BitVec.ofNat 32 (w % 2 ^ nbits))

end Sys2Proof.Machine
end

