-- ==== Sys2Proof/Machine/Asm.lean ====
section
/-! DEFINITION. The assembler syntax of R58 and the pseudo-instructions of R59, over lists of characters: one line to the
commands it stands for, and a command to its line. What the rules leave open (spaces, characters without an ASCII code) is
log 14. -/

namespace Sys2Proof.Machine

/-! ## Pseudo-instructions (R59) -/

/-- `KEY "text"`: one KPUT per character, its ASCII code. DESIGN CHOICE (log 14): R59 gives no expansion for a character that
has no ASCII code; here it stands for its Unicode code modulo 256. -/
def pseudoKey (text : List Char) : List Instr := text.map fun c => .kput (BitVec.ofNat 8 c.toNat)

/-- `KEYX b0 b1 ...`: one KPUT per byte. -/
def pseudoKeyX (bytes : List Byte) : List Instr := bytes.map .kput

/-- `MSG "text"`: one IPUT per character, its ASCII code. DESIGN CHOICE (log 14): R59 gives no expansion for a character that
has no ASCII code; here it stands for its Unicode code modulo 256. -/
def pseudoMsg (text : List Char) : List Instr := text.map fun c => .iput (BitVec.ofNat 8 c.toNat)

/-- `MSGX b0 b1 ...`: one IPUT per byte. -/
def pseudoMsgX (bytes : List Byte) : List Instr := bytes.map .iput

/-- `LDBK a, b, c, d`: the four data registers. -/
def pseudoLdbk (a b c d : Word) : List Instr := [.ldi .A a, .ldi .B b, .ldi .C c, .ldi .D d]

/-- `CLRALL`: `CLR 15`. -/
def pseudoClrAll : List Instr := [.clr 15]

/-! ## Words and numbers -/

/-- A blank between words. -/
def isBlank (c : Char) : Bool := c == ' ' || c == '\t'

/-- The text without blanks at either end. -/
def trim (t : List Char) : List Char := ((t.dropWhile isBlank).reverse.dropWhile isBlank).reverse

/-- "A comment runs from `;` to the end of the line" (R58). -/
def stripComment (t : List Char) : List Char := t.takeWhile fun c => c != ';'

/-- The pieces of a text between separators. -/
def splitOnChar (sep : Char → Bool) : List Char → List (List Char)
  | [] => [[]]
  | c :: rest =>
    match splitOnChar sep rest with
    | [] => if sep c then [[], []] else [[c]]
    | piece :: pieces => if sep c then [] :: piece :: pieces else (c :: piece) :: pieces

/-- The value of a digit in base 10 or 16. -/
def digitValue (base : Nat) (c : Char) : Option Nat :=
  let v := if '0' ≤ c ∧ c ≤ '9' then c.toNat - 48
    else if 'A' ≤ c ∧ c ≤ 'F' then c.toNat - 55
    else if 'a' ≤ c ∧ c ≤ 'f' then c.toNat - 87
    else base
  if v < base then some v else none

/-- Digits, most significant first, onto a value read so far. -/
def digitsValue (base : Nat) : List Char → Nat → Option Nat
  | [], acc => some acc
  | c :: rest, acc => (digitValue base c).bind fun v => digitsValue base rest (acc * base + v)

/-- "An immediate is decimal or `0x` hexadecimal" (R58). -/
def parseNumber : List Char → Option Nat
  | [] => none
  | '0' :: 'x' :: c :: rest => digitsValue 16 (c :: rest) 0
  | c :: rest => digitsValue 10 (c :: rest) 0

/-- A number below a bound. -/
def parseBelow (bound : Nat) (t : List Char) : Option Nat := (parseNumber t).bind fun n => if n < bound then some n else none

/-- "A register operand is A, B, C, D or, the same, X0, X1, X2, X3" (R58). -/
def parseReg : List Char → Option Reg
  | ['A'] => some .A
  | ['B'] => some .B
  | ['C'] => some .C
  | ['D'] => some .D
  | ['X', '0'] => some .A
  | ['X', '1'] => some .B
  | ['X', '2'] => some .C
  | ['X', '3'] => some .D
  | _ => none

/-- A 16-bit immediate. -/
def parseImm16 (t : List Char) : Option (BitVec 16) := (parseBelow 65536 t).map (BitVec.ofNat 16)

/-- An 8-bit immediate. -/
def parseImm8 (t : List Char) : Option (BitVec 8) := (parseBelow 256 t).map (BitVec.ofNat 8)

/-! ## Lines -/

/-- The spelling of a mnemonic: "Mnemonics are upper case" (R58). -/
def mnemonicText : Mnemonic → List Char
  | .CLR => ['C', 'L', 'R']
  | .LDI => ['L', 'D', 'I']
  | .ADD => ['A', 'D', 'D']
  | .MUL => ['M', 'U', 'L']
  | .AINV => ['A', 'I', 'N', 'V']
  | .MINV => ['M', 'I', 'N', 'V']
  | .KPUT => ['K', 'P', 'U', 'T']
  | .KEXP => ['K', 'E', 'X', 'P']
  | .LDK => ['L', 'D', 'K']
  | .ENCB => ['E', 'N', 'C', 'B']
  | .DECB => ['D', 'E', 'C', 'B']
  | .IPUT => ['I', 'P', 'U', 'T']
  | .PAD => ['P', 'A', 'D']
  | .LDBLK => ['L', 'D', 'B', 'L', 'K']
  | .STHEX => ['S', 'T', 'H', 'E', 'X']
  | .LDHEX => ['L', 'D', 'H', 'E', 'X']
  | .STBLK => ['S', 'T', 'B', 'L', 'K']
  | .UNPAD => ['U', 'N', 'P', 'A', 'D']
  | .ENCMSG => ['E', 'N', 'C', 'M', 'S', 'G']
  | .DECMSG => ['D', 'E', 'C', 'M', 'S', 'G']

/-- The mnemonic a text spells. -/
def parseMnemonic (t : List Char) : Option Mnemonic :=
  (opcodeTable.find? fun r => mnemonicText r.mnemonic == t).map (·.mnemonic)

/-- A mnemonic with its operands, in the forms of R58; nothing for any other operand list. -/
def parseForm (m : Mnemonic) (ops : List (List Char)) : Option Instr :=
  match m, ops with
  | .CLR, [n] => (parseBelow 16 n).map fun v => .clr (BitVec.ofNat 16 v)
  | .LDI, [rd, n] => do some (.ldi (← parseReg rd) (← parseImm16 n))
  | .ADD, [rd, r1, r2] => do some (.add (← parseReg rd) (← parseReg r1) (← parseReg r2))
  | .MUL, [rd, r1, r2] => do some (.mul (← parseReg rd) (← parseReg r1) (← parseReg r2))
  | .AINV, [rd, r1] => do some (.ainv (← parseReg rd) (← parseReg r1))
  | .MINV, [rd, r1] => do some (.minv (← parseReg rd) (← parseReg r1))
  | .KPUT, [n] => (parseImm8 n).map .kput
  | .KEXP, [] => some .kexp
  | .LDK, [rd, n] => do some (.ldk (← parseReg rd) (← parseImm16 n))
  | .ENCB, [] => some .encb
  | .DECB, [] => some .decb
  | .IPUT, [n] => (parseImm8 n).map .iput
  | .PAD, [] => some .pad
  | .LDBLK, [n] => (parseImm16 n).map .ldblk
  | .STHEX, [] => some .sthex
  | .LDHEX, [n] => (parseImm16 n).map .ldhex
  | .STBLK, [] => some .stblk
  | .UNPAD, [] => some .unpad
  | .ENCMSG, [] => some .encmsg
  | .DECMSG, [] => some .decmsg
  | _, _ => none

/-- The operands of a line, between commas. -/
def parseOperands (t : List Char) : List (List Char) :=
  if t.isEmpty then [] else (splitOnChar (fun c => c == ',') t).map trim

/-- The double quote that encloses the text of KEY and MSG (R59). -/
def quoteChar : Char := Char.ofNat 34

/-- The text between two double quotes, nothing but a comment after it. -/
def parseQuoted : List Char → Option (List Char)
  | [] => none
  | q :: rest =>
    if q = quoteChar ∧ rest.contains quoteChar
        ∧ trim (stripComment (rest.dropWhile fun c => c != quoteChar).tail) = [] then
      some (rest.takeWhile fun c => c != quoteChar)
    else none

/-- Bytes between blanks. -/
def parseBytes (t : List Char) : Option (List Byte) :=
  ((splitOnChar isBlank t).filter fun w => !w.isEmpty).mapM parseImm8

/-- The commands one line stands for, a pseudo-instruction in its expansion (R58, R59); none for an empty line; nothing where
the line has no form of the two rules. -/
def parseLine (line : List Char) : Option (List Instr) :=
  let text := line.dropWhile isBlank
  let head := (stripComment text).takeWhile fun c => !isBlank c
  let rest := (text.drop head.length).dropWhile isBlank
  let args := trim (stripComment rest)
  if head = [] then some []
  else if head = ['K', 'E', 'Y'] then (parseQuoted rest).map pseudoKey
  else if head = ['M', 'S', 'G'] then (parseQuoted rest).map pseudoMsg
  else if head = ['K', 'E', 'Y', 'X'] then (parseBytes args).map pseudoKeyX
  else if head = ['M', 'S', 'G', 'X'] then (parseBytes args).map pseudoMsgX
  else if head = ['C', 'L', 'R', 'A', 'L', 'L'] then if args = [] then some pseudoClrAll else none
  else if head = ['L', 'D', 'B', 'K'] then
    match parseOperands args with
    | [a, b, c, d] => do some (pseudoLdbk (← parseImm16 a) (← parseImm16 b) (← parseImm16 c) (← parseImm16 d))
    | _ => none
  else (parseMnemonic head).bind fun m => (parseForm m (parseOperands args)).map fun i => [i]

/-- A register's name. -/
def regText : Reg → List Char
  | .A => ['A']
  | .B => ['B']
  | .C => ['C']
  | .D => ['D']

/-- A command's operands as text, immediates in decimal. -/
def operandTexts : Instr → List (List Char)
  | .clr mask => [Nat.toDigits 10 mask.toNat]
  | .ldi rd imm => [regText rd, Nat.toDigits 10 imm.toNat]
  | .add rd rs1 rs2 => [regText rd, regText rs1, regText rs2]
  | .mul rd rs1 rs2 => [regText rd, regText rs1, regText rs2]
  | .ainv rd rs1 => [regText rd, regText rs1]
  | .minv rd rs1 => [regText rd, regText rs1]
  | .kput imm => [Nat.toDigits 10 imm.toNat]
  | .kexp => []
  | .ldk rd index => [regText rd, Nat.toDigits 10 index.toNat]
  | .encb => []
  | .decb => []
  | .iput imm => [Nat.toDigits 10 imm.toNat]
  | .pad => []
  | .ldblk n => [Nat.toDigits 10 n.toNat]
  | .sthex => []
  | .ldhex n => [Nat.toDigits 10 n.toNat]
  | .stblk => []
  | .unpad => []
  | .encmsg => []
  | .decmsg => []

/-- A command's line: the mnemonic, then the operands between commas, destination first (R58). -/
def printLine (i : Instr) : List Char :=
  match operandTexts i with
  | [] => mnemonicText i.mnemonic
  | ops => mnemonicText i.mnemonic ++ [' '] ++ [',', ' '].intercalate ops

end Sys2Proof.Machine
end

