-- ==== Sys2Proof/Machine/HostPort.lean ====
section
/-! DEFINITION. The host's side: what it can read between commands (R24), and its procedures `encrypt` and `decrypt` (R155),
with the escaping step as an argument (R6, D7). Nothing here is engine state. -/

namespace Sys2Proof.Machine

/-- The host-visible state: SR0 to SR5, `X[0..3]` and `OB[0..OLEN-1]` (R24). -/
structure HostView where
  err : BitVec 4
  errlog : BitVec 16
  kvalid : Bool
  klen : Nat
  ilen : Nat
  olen : Nat
  x : Block
  ob : List Byte
  deriving DecidableEq, Repr

/-- What the host reads; a read has no side effect (R24). The bytes of KB and IB and the subkeys are not in it. -/
def State.hostView (s : State) : HostView where
  err := s.err
  errlog := s.errlog
  kvalid := s.kvalid
  klen := s.klen
  ilen := s.ilen
  olen := s.olen
  x := s.x
  ob := s.ob

/-- The host's read of `OB[i]` (R17). -/
def State.hostReadOB (s : State) (i : Nat) : Option Byte := s.readByte .OB i

/-- The host gives commands one after the other and stops at the first that reports an error (R155). -/
def hostRun : List Instr → State → Host.Outcome State Fault Refusal
  | [], s => .next s
  | i :: rest, s =>
    match exec i s with
    | .next t => if t.err = 0#4 then hostRun rest t else .next t
    | .fault f => .fault f
    | .refused r => .refused r

/-- What the host returns: the bytes of OB, or the error `ERR` names (R155). -/
def hostResult (s : State) : Except (BitVec 4) (List Byte) := if s.err = 0#4 then .ok s.ob else .error s.err

/-- The commands of `encrypt` for escaped text (R155). -/
def encryptCommands (message key : List Byte) : List Instr :=
  .clr 15 :: (key.map .kput ++ message.map .iput ++ [.encmsg])

/-- The commands of `decrypt` for an escaped key and the codes of the ciphertext's characters (R155). -/
def decryptCommands (codes key : List Byte) : List Instr :=
  .clr 15 :: (key.map .kput ++ codes.map .iput ++ [.decmsg])

/-- `code(c)`: the character's code as one byte; for a character whose code does not fit a byte the host sends `0x00`
(R155, log 12). -/
def charCode (c : Char) : Byte := if c.toNat < 256 then BitVec.ofNat 8 c.toNat else 0#8

/-- A byte of OB as an ASCII character (R155). -/
def asciiChar (b : Byte) : Char := Char.ofNat b.toNat

/-- `encrypt(plaintext, key)` on a machine in state `s`: the ciphertext's characters, or the error reported (R155). -/
def hostEncrypt {Text : Type} (escape : Text → List Byte) (plaintext key : Text) (s : State) :
    Option (Except (BitVec 4) (List Char) × State) :=
  match hostRun (encryptCommands (escape plaintext) (escape key)) s with
  | .next t => some ((hostResult t).map (·.map asciiChar), t)
  | .fault _ => none
  | .refused _ => none

/-- `decrypt(ciphertext, key)` on a machine in state `s`: the plaintext, or the error reported (R155). -/
def hostDecrypt {Text : Type} (escape : Text → List Byte) (unescape : List Byte → Text) (ciphertext : List Char)
    (key : Text) (s : State) : Option (Except (BitVec 4) Text × State) :=
  match hostRun (decryptCommands (ciphertext.map charCode) (escape key)) s with
  | .next t => some ((hostResult t).map unescape, t)
  | .fault _ => none
  | .refused _ => none

end Sys2Proof.Machine
end

