-- ==== Sys2Proof/Safety.lean ====
section
/-! DEFINITION. What claims are stated in: the invariant of the machine's states (R14, R16, R17, R22, R23), a run without an
error (R23), and runs that never stop (R177). -/

namespace Sys2Proof.Machine

/-- `ERRLOG` may hold bits 1 to 9 only (R23). -/
def errlogLegal : BitVec 16 := 0x03FE#16

/-- What holds of every state a run can reach (R14, R16, R17, R22, R23). -/
structure State.Inv (s : State) : Prop where
  /-- R14: with `KVALID = 1` there is a key and `K` is its schedule. -/
  schedule_valid : s.kvalid = true → s.kb ≠ [] ∧ s.k = keySchedule s.kb
  /-- R14: with `KVALID = 0` every subkey is 0. -/
  schedule_zero : s.kvalid = false → s.k = Vector.replicate 52 0#16
  /-- R16: at most 16 key bytes. -/
  kb_bounded : s.kb.length ≤ 16
  /-- R17: at most `CAP` input bytes. -/
  ib_bounded : s.ib.length ≤ s.cap
  /-- R17: at most `CAP` output bytes. -/
  ob_bounded : s.ob.length ≤ s.cap
  /-- R22: codes 10 to 15 are never written. -/
  err_legal : s.err.toNat ≤ 9
  /-- R23: bit 0 and bits 10 to 15 are always 0. -/
  errlog_legal : s.errlog &&& ~~~errlogLegal = 0#16
  /-- R22, R23: an error code in `ERR` has its bit in `ERRLOG`. -/
  err_logged : s.err ≠ 0#4 → s.errlog.getLsbD s.err.toNat = true

/-- The state after error code `c`: "`ERR <- c`; `ERRLOG[c] <- 1`; and nothing else changes" (R176). The code is a number of the
table of R170. -/
def raised (s : State) (c : Nat) : State :=
  { s with err := BitVec.ofNat 4 c, errlog := s.errlog ||| BitVec.twoPow 16 c }

/-- The listing of R106 as a relation: `q` is what one round makes of `p` under six subkeys. -/
def IsRound (p q : Block) (k0 k1 k2 k3 k4 k5 : Word) : Prop :=
  ∃ a b c d e f g h i j : Word,
    a = multiply p.a k0 ∧ b = add p.b k1 ∧ c = add p.c k2 ∧ d = multiply p.d k3 ∧
    e = a ^^^ c ∧ f = b ^^^ d ∧ g = multiply e k4 ∧ h = add f g ∧ i = multiply h k5 ∧ j = add g i ∧
    q.a = a ^^^ i ∧ q.b = c ^^^ i ∧ q.c = b ^^^ j ∧ q.d = d ^^^ j

/-- The listing of R107 as a relation. -/
def IsOutT (p q : Block) (k0 k1 k2 k3 : Word) : Prop :=
  q.a = multiply p.a k0 ∧ q.b = add p.c k1 ∧ q.c = add p.b k2 ∧ q.d = multiply p.d k3

/-- `K[i]` of a schedule, for an index below 52. -/
def keyAt (k : Subkeys) (i : Nat) : Word := (k[i]?).getD 0#16

/-- Bit `p` of a byte list counted from the top: bit 0 is the most significant bit of its first byte (R31). -/
def bitFromTop (bytes : List Byte) (p : Nat) : Bool := ((bytes[p / 8]?).getD 0#8).getLsbD (7 - p % 8)

/-- `filler` is what the random source gives for `n` bytes in state `s`, and `g` is the source afterwards: the listed answers
first, in order, then bytes of which nothing is said (R186, log 3). -/
def Drawn (s : State) (n : Nat) (filler : List Byte) (g : Rng) : Prop :=
  filler.length = n ∧ filler.take s.rng.answers.length = s.rng.answers.take n ∧
    g.answers = s.rng.answers.drop n ∧ g.taken = s.rng.taken + n

/-- The bytes a command stores when it appends to a buffer: the address space, the first address, the number of bytes
(R35, R95, R137, R138, R140, R142). CLR, UNPAD, ENCMSG and DECMSG, which empty or cut buffers, are not described here. -/
def storedSpan (i : Instr) (s : State) : Option (Space × Nat × Nat) :=
  match i.mnemonic with
  | .KPUT => some (.KB, s.klen, 1)
  | .IPUT => some (.IB, s.ilen, 1)
  | .PAD => some (.IB, s.ilen, if s.ilen % 8 = 0 then 0 else 8 - s.ilen % 8)
  | .STHEX => some (.OB, s.olen, 16)
  | .STBLK => some (.OB, s.olen, 8)
  | _ => none

/-- An address is among the bytes a command stores. -/
def inStoredSpan (i : Instr) (s : State) (sp : Space) (address : Nat) : Prop :=
  ∃ first count, storedSpan i s = some (sp, first, count) ∧ first ≤ address ∧ address < first + count

/-- The error codes a command can report (R170, R178); 0 is success. -/
def reportable : Mnemonic → List Nat
  | .KPUT => [0, 6]
  | .KEXP => [0, 1]
  | .LDK => [0, 5, 8]
  | .ENCB => [0, 5]
  | .DECB => [0, 5]
  | .IPUT => [0, 7]
  | .LDBLK => [0, 8]
  | .STHEX => [0, 7]
  | .LDHEX => [0, 4, 8]
  | .STBLK => [0, 7]
  | .ENCMSG => [0, 1, 2, 7]
  | .DECMSG => [0, 1, 3, 4]
  | .CLR => [0]
  | .LDI => [0]
  | .ADD => [0]
  | .MUL => [0]
  | .AINV => [0]
  | .MINV => [0]
  | .PAD => [0]
  | .UNPAD => [0]

/-- The command sequence of R157 (d) for a message of `blocks` padded Blocks. -/
def encmsgSequence (blocks : Nat) : List Instr :=
  [.kexp, .pad, .clr 4] ++
    (List.range blocks).flatMap (fun n => [.ldblk (BitVec.ofNat 16 n), .encb, .sthex]) ++ [.clr 3]

/-- The command sequence of R159 (d) for a ciphertext of `groups` groups. -/
def decmsgSequence (groups : Nat) : List Instr :=
  [.kexp, .clr 4] ++
    (List.range groups).flatMap (fun n => [.ldhex (BitVec.ofNat 16 n), .decb, .stblk]) ++ [.unpad, .clr 3]

/-- The illegal words of R55: (a) an unassigned opcode, (b) a reserved bit of the command's format set, (c) a CLR whose mask
has any of bits 15:4 set. -/
def IllegalWord (w : CommandWord) : Prop :=
  let op := w.extractLsb' 24 8
  op ∉ [0x01#8, 0x10#8, 0x11#8, 0x12#8, 0x13#8, 0x14#8, 0x20#8, 0x21#8, 0x22#8, 0x30#8, 0x31#8, 0x40#8, 0x41#8, 0x42#8,
        0x43#8, 0x44#8, 0x45#8, 0x46#8, 0x50#8, 0x51#8] ∨
  (op ∈ [0x21#8, 0x30#8, 0x31#8, 0x41#8, 0x43#8, 0x45#8, 0x46#8, 0x50#8, 0x51#8] ∧ w.extractLsb' 0 24 ≠ 0#24) ∨
  (op ∈ [0x11#8, 0x12#8] ∧ w.extractLsb' 0 18 ≠ 0#18) ∨
  (op ∈ [0x13#8, 0x14#8] ∧ w.extractLsb' 0 20 ≠ 0#20) ∨
  (op ∈ [0x10#8, 0x22#8] ∧ w.extractLsb' 16 6 ≠ 0#6) ∨
  (op ∈ [0x01#8, 0x42#8, 0x44#8] ∧ w.extractLsb' 16 8 ≠ 0#8) ∨
  (op ∈ [0x20#8, 0x40#8] ∧ w.extractLsb' 8 16 ≠ 0#16) ∨
  (op = 0x01#8 ∧ w.extractLsb' 4 12 ≠ 0#12)

/-- "no error recorded" (R23). -/
def State.noErrorRecorded (s : State) : Prop := s.errlog = 0#16

/-- A command or a step ends in a next state. -/
def Completes (o : Host.Outcome State Fault Refusal) : Prop := ∃ t, o = .next t

/-- `n` steps end in a state of which `P` holds: a run that is never stopped (R177). -/
def RunsTo (n : Nat) (s : State) (P : State → Prop) : Prop := ∃ t, Sys2Proof.core.run n s = .next t ∧ P t

end Sys2Proof.Machine
end

