-- ==== Sys2Proof/Certificates/Slice0/Obligations.lean ====
section
/-! DEFINITION. The statements for the provers. Most conclusions are equations with the whole next state: what the equation
does not name is unchanged, so each is a completion statement and a frame at once. -/

open Sys2Proof Sys2Proof.Machine

/-! ## Reset, the host's inputs, decoding -/

/-- R29, with R12, R15, R19, R25: the state after reset, for every capacity. The last clause is the model's choice (log 2, DESIGN
CHOICE) and no rule's: `State.reset` is the one of the free capacity. -/
def Obligations.ResetLeavesStatedValues : Prop :=
  (∀ c : Config,
    (∀ r : Reg, (State.resetWith c).getX r = 0#16) ∧ (∀ i : Nat, i < 52 → (State.resetWith c).subkey i = some 0#16) ∧
    (State.resetWith c).kvalid = false ∧ (State.resetWith c).kb = [] ∧ (State.resetWith c).ib = [] ∧
    (State.resetWith c).ob = [] ∧ (State.resetWith c).err = 0#4 ∧ (State.resetWith c).errlog = 0#16) ∧
  State.reset = State.resetWith Config.platform

/-- R190 in the model's form (logs 1, 4): reset as the host's next input gives the spec's state its reset values and leaves the
capacity, the random source and the host's further inputs; with no input the engine waits and nothing changes (log 1). -/
def Obligations.ResetAndIdleSteps : Prop :=
  (∀ (s : State) (rest : List HostEvent), s.port = .reset :: rest →
    step s = .next { x := ⟨0, 0, 0, 0⟩, k := Vector.replicate 52 0, kvalid := false, kb := [], ib := [], ob := [],
                     err := 0, errlog := 0, cfg := s.cfg, rng := s.rng, port := rest }) ∧
  (∀ s : State, s.port = [] → step s = .next s)

/-- R40 in the model's form (log 1): the host's next word is taken and run, a word that decodes as `exec` of its command; and
`withFetchWord` puts a word where the next step takes it. -/
def Obligations.StepRunsDecodedCommand : Prop :=
  (∀ (s : State) (w : CommandWord) (rest : List HostEvent),
    s.port = .command w :: rest → step s = execWord w { s with port := rest }) ∧
  (∀ (s : State) (w : CommandWord) (rest : List HostEvent) (i : Instr),
    s.port = .command w :: rest → decode w = .ok i → step s = exec i { s with port := rest }) ∧
  (∀ (s : State) (n : Nat) (i : Instr), n < 2 ^ 32 → decode (BitVec.ofNat 32 n) = .ok i →
    step (s.withFetchWord 32 n) = exec i s)

/-- R55, R175: a word is illegal in exactly the three cases, and raises IllegalCommand (code 9) with no other effect. -/
def Obligations.IllegalWordsRaiseIllegalCommand : Prop :=
  ∀ (w : CommandWord) (s : State),
    (IllegalWord w ↔ ¬ ∃ i, decode w = .ok i) ∧ (IllegalWord w → execWord w s = .next (raised s 9))

/-- R54: `w AND mask = match` alone decides every command. -/
def Obligations.MaskAndMatchDecideEveryCommand : Prop :=
  ∀ (w : CommandWord) (m : Mnemonic), (∃ i, decode w = .ok i ∧ i.mnemonic = m) ↔ w &&& rowMask m = rowMatch m

/-- Words written out from 30_encoding.md and from section 6 of 95_test_vectors.md, one or more of each family. -/
def Obligations.SampleWordsDecode : Prop :=
  decode 0x0100000F#32 = .ok (.clr 15) ∧ decode 0x10C0BEEF#32 = .ok (.ldi .D 0xBEEF) ∧
  decode 0x11E40000#32 = .ok (.add .D .C .B) ∧ decode 0x14800000#32 = .ok (.minv .C .A) ∧
  decode 0x2240002F#32 = .ok (.ldk .B 47) ∧ decode 0x30000000#32 = .ok .encb ∧
  decode 0x4200FFFF#32 = .ok (.ldblk 0xFFFF) ∧ decode 0x51000000#32 = .ok .decmsg ∧
  decode 0x01000010#32 = .error .clrMask ∧ decode 0x13040000#32 = .error .reservedBit ∧
  decode 0x7F000000#32 = .error .unassignedOpcode

/-- Encoding (R52, R54, R57): decoding the word of a well-formed command gives the command, every operand at every value. -/
def Obligations.DecodeOfEncodeIsTheCommand : Prop :=
  ∀ i : Instr, i.wellFormed = true → decode (encode i) = .ok i

/-- Encoding, the other way (R55: "every 32-bit word either is exactly one command or is illegal"): a word that decodes is
the word of the command it decodes to, and that command is well formed. -/
def Obligations.EncodeOfDecodeIsTheWord : Prop :=
  ∀ (w : CommandWord) (i : Instr), decode w = .ok i → i.wellFormed = true ∧ encode i = w

/-- R58, with spaces as log 14 says: the assembler reads the line it prints for a command as that command. -/
def Obligations.AssemblerReadsPrintedLines : Prop :=
  ∀ i : Instr, i.wellFormed = true → parseLine (printLine i) = some [i]

/-! ## Arithmetic -/

/-- R77: LDI. -/
def Obligations.LdiLoadsImmediate : Prop :=
  ∀ (rd : Reg) (imm : BitVec 16) (s : State), ∃ t, exec (.ldi rd imm) s = .next t ∧
    (∀ r, t.getX r = if r = rd then imm else s.getX r) ∧ t = { s with x := t.x, err := 0#4 }

/-- R78: ADD, modulo 2^16; sources read before the destination is written. -/
def Obligations.AddWritesSumModulo65536 : Prop :=
  ∀ (rd rs1 rs2 : Reg) (s : State), ∃ t, exec (.add rd rs1 rs2) s = .next t ∧
    (∀ r, (t.getX r).toNat =
      if r = rd then ((s.getX rs1).toNat + (s.getX rs2).toNat) % 65536 else (s.getX r).toNat) ∧
    t = { s with x := t.x, err := 0#4 }

/-- R79: MUL, modulo 2^16+1, an operand 0 standing for 65536 and a result 65536 written 0. -/
def Obligations.MulWritesProductModulo65537 : Prop :=
  ∀ (rd rs1 rs2 : Reg) (s : State), ∃ t, exec (.mul rd rs1 rs2) s = .next t ∧
    (∀ r, (t.getX r).toNat =
      if r = rd then
        ((if s.getX rs1 = 0 then 65536 else (s.getX rs1).toNat) *
          (if s.getX rs2 = 0 then 65536 else (s.getX rs2).toNat) % 65537) % 65536
      else (s.getX r).toNat) ∧
    t = { s with x := t.x, err := 0#4 }

/-- R80: AINV. -/
def Obligations.AinvWritesAdditiveInverse : Prop :=
  ∀ (rd rs1 : Reg) (s : State), ∃ t, exec (.ainv rd rs1) s = .next t ∧
    (∀ r, (t.getX r).toNat = if r = rd then (65536 - (s.getX rs1).toNat) % 65536 else (s.getX r).toNat) ∧
    t = { s with x := t.x, err := 0#4 }

/-- R81, R73: MINV, `x^65535 mod 65537` by the spec's own formula, 0 for 0. -/
def Obligations.MinvWritesFermatInverse : Prop :=
  ∀ (rd rs1 : Reg) (s : State), ∃ t, exec (.minv rd rs1) s = .next t ∧
    (∀ r, (t.getX r).toNat =
      if r = rd then (if s.getX rs1 = 0 then 0 else (s.getX rs1).toNat ^ 65535 % 65537) else (s.getX r).toNat) ∧
    t = { s with x := t.x, err := 0#4 }

/-- R75, its eight laws in order. -/
def Obligations.ArithmeticLaws : Prop :=
  ((∀ x y : Word, add x y = add y x) ∧ (∀ x y z : Word, add (add x y) z = add x (add y z)) ∧
    (∀ x : Word, add x 0 = x) ∧ (∀ x : Word, add x (ainv x) = 0)) ∧
  (∀ x : Word, ainv (ainv x) = x) ∧
  ((∀ x y : Word, multiply x y = multiply y x) ∧
    (∀ x y z : Word, multiply (multiply x y) z = multiply x (multiply y z)) ∧ (∀ x : Word, multiply 1 x = x)) ∧
  (multiply 0 0 = 1 ∧ multiply 0 1 = 0 ∧ ∀ y : Word, 2 ≤ y.toNat → (multiply 0 y).toNat = 65537 - y.toNat) ∧
  (∀ x : Word, multiply x (minv x) = 1) ∧
  (∀ x : Word, minv (minv x) = x) ∧
  (∀ k x : Word, (add (add x k) (ainv k) = x ∧ add (add x (ainv k)) k = x) ∧
    (multiply (multiply x k) (minv k) = x ∧ multiply (multiply x (minv k)) k = x) ∧ (x ^^^ k) ^^^ k = x) ∧
  ((∃ x y z : Word, multiply x (add y z) ≠ add (multiply x y) (multiply x z)) ∧
    ∃ x y z : Word, add x (y ^^^ z) ≠ add x y ^^^ add x z)

/-! ## Key scheduler -/

/-- R95: KPUT. -/
def Obligations.KputAppendsKeyByte : Prop :=
  ∀ (imm : Byte) (s : State),
    (s.kb.length = 16 → exec (.kput imm) s = .next (raised s 6)) ∧
    (s.kb.length ≠ 16 → exec (.kput imm) s =
      .next { s with kb := s.kb ++ [imm], k := Vector.replicate 52 0, kvalid := false, err := 0#4 })

/-- R96: KEXP, on the key buffers R16 allows. -/
def Obligations.KexpExpandsKey : Prop :=
  ∀ s : State,
    (s.kb.length = 0 → exec .kexp s = .next (raised s 1)) ∧
    (1 ≤ s.kb.length → s.kb.length ≤ 16 →
      exec .kexp s = .next { s with k := schedule (keyRegister (padKey s.kb)), kvalid := true, err := 0#4 })

/-- R94 (b) with R91, R31 and R93: every subkey bit is a bit of the padded key: `K[8m + j]` is the 16 bits that start
`(25m + 16j) mod 128` positions below the top and run downward, cyclically. -/
def Obligations.SubkeyBitsArePaddedKeyBits : Prop :=
  ∀ (kb : List Byte) (m j b : Nat), 1 ≤ kb.length → kb.length ≤ 16 → j < 8 → 8 * m + j ≤ 51 → b < 16 →
    (keyAt (keySchedule kb) (8 * m + j)).getLsbD (15 - b) =
      bitFromTop (kb ++ List.replicate (16 - kb.length) 1#8) ((25 * m + 16 * j + b) % 128)

/-- R97: LDK, its three cases in order. -/
def Obligations.LdkReadsSubkey : Prop :=
  ∀ (rd : Reg) (index : BitVec 16) (s : State),
    (s.kvalid = false → exec (.ldk rd index) s = .next (raised s 5)) ∧
    (s.kvalid = true → 51 < index.toNat → exec (.ldk rd index) s = .next (raised s 8)) ∧
    (s.kvalid = true → index.toNat ≤ 51 → ∃ t, exec (.ldk rd index) s = .next t ∧
      (∀ r, t.getX r = if r = rd then keyAt s.k index.toNat else s.getX r) ∧ t = { s with x := t.x, err := 0#4 })

/-- R198: a short key and its extension by `0x01` bytes, up to 16, give the same schedule and the same ciphertext. -/
def Obligations.ShortKeyExtensionSameCiphertext : Prop :=
  ∀ (s : State) (n : Nat), 1 ≤ s.kb.length → s.kb.length + n ≤ 16 →
    (∃ keys : Subkeys,
      exec .kexp s = .next { s with k := keys, kvalid := true, err := 0#4 } ∧
      exec .kexp { s with kb := s.kb ++ List.replicate n 1#8 } =
        .next { s with kb := s.kb ++ List.replicate n 1#8, k := keys, kvalid := true, err := 0#4 }) ∧
    ∀ t, exec .encmsg s = .next t → t.err = 0#4 →
      exec .encmsg { s with kb := s.kb ++ List.replicate n 1#8 } = .next t

/-- R13: a command after which `KVALID` is 1 is KEXP, or left the schedule, the flag and the key bytes as they were. -/
def Obligations.OnlyKexpMakesScheduleValid : Prop :=
  ∀ (i : Instr) (s t : State), exec i s = .next t → t.kvalid = true →
    i = .kexp ∨ (s.kvalid = true ∧ t.k = s.k ∧ t.kb = s.kb)

/-! ## Round engine -/

/-- R109 with R105 to R108: ENCB, round by round. -/
def Obligations.EncbEncryptsBlock : Prop :=
  ∀ s : State,
    (s.kvalid = false → exec .encb s = .next (raised s 5)) ∧
    (s.kvalid = true → ∃ (st : Nat → Block) (t : State), exec .encb s = .next t ∧ st 0 = s.x ∧
      (∀ r, r < 8 → IsRound (st r) (st (r + 1)) (keyAt s.k (6 * r)) (keyAt s.k (6 * r + 1)) (keyAt s.k (6 * r + 2))
        (keyAt s.k (6 * r + 3)) (keyAt s.k (6 * r + 4)) (keyAt s.k (6 * r + 5))) ∧
      IsOutT (st 8) t.x (keyAt s.k 48) (keyAt s.k 49) (keyAt s.k 50) (keyAt s.k 51) ∧
      t = { s with x := t.x, err := 0#4 })

/-- R121 with R116 to R120: DECB, round by round, with the index pattern of R117 and R118. -/
def Obligations.DecbDecryptsBlock : Prop :=
  ∀ s : State,
    (s.kvalid = false → exec .decb s = .next (raised s 5)) ∧
    (s.kvalid = true → ∃ (st : Nat → Block) (t : State), exec .decb s = .next t ∧ st 0 = s.x ∧
      IsRound (st 0) (st 1) (minv (keyAt s.k 48)) (ainv (keyAt s.k 49)) (ainv (keyAt s.k 50)) (minv (keyAt s.k 51))
        (keyAt s.k 46) (keyAt s.k 47) ∧
      (∀ r, 1 ≤ r → r < 8 →
        IsRound (st r) (st (r + 1)) (minv (keyAt s.k (51 - 6 * r - 3))) (ainv (keyAt s.k (51 - 6 * r - 1)))
          (ainv (keyAt s.k (51 - 6 * r - 2))) (minv (keyAt s.k (51 - 6 * r)))
          (keyAt s.k (51 - 6 * r - 5)) (keyAt s.k (51 - 6 * r - 4))) ∧
      IsOutT (st 8) t.x (minv (keyAt s.k 0)) (ainv (keyAt s.k 1)) (ainv (keyAt s.k 2)) (minv (keyAt s.k 3)) ∧
      t = { s with x := t.x, err := 0#4 })

/-- R122: decryption inverts encryption and encryption inverts decryption, for every schedule and every Block. -/
def Obligations.DecryptionInvertsEncryption : Prop :=
  ∀ (k : Subkeys) (p : Block), decBlock k (encBlock k p) = p ∧ encBlock k (decBlock k p) = p

/-- R122 for the commands: ENCB then DECB, and DECB then ENCB, give back the state but for `ERR`. -/
def Obligations.EncbAndDecbUndoEachOther : Prop :=
  ∀ s : State, s.kvalid = true →
    (∃ t, exec .encb s = .next t ∧ exec .decb t = .next { s with err := 0#4 }) ∧
    (∃ t, exec .decb s = .next t ∧ exec .encb t = .next { s with err := 0#4 })

/-- R123: the entries of the decryption schedule, and `DecBlock(K, P) = EncBlock(DK(K), P)`. -/
def Obligations.DecryptionIsEncryptionUnderInverseSchedule : Prop :=
  ∀ k : Subkeys,
    (∀ t : Fin 8, ([0, 1, 2, 3, 4, 5].map fun j => keyAt (decSchedule k) (6 * t.val + j)) = (decKeys k t).toList) ∧
    (keyAt (decSchedule k) 48 = minv (keyAt k 0) ∧ keyAt (decSchedule k) 49 = ainv (keyAt k 1) ∧
      keyAt (decSchedule k) 50 = ainv (keyAt k 2) ∧ keyAt (decSchedule k) 51 = minv (keyAt k 3)) ∧
    ∀ p : Block, decBlock k p = encBlock (decSchedule k) p

/-! ## Codec -/

/-- R137: IPUT. -/
def Obligations.IputAppendsInputByte : Prop :=
  ∀ (imm : Byte) (s : State),
    (s.ib.length = s.cap → exec (.iput imm) s = .next (raised s 7)) ∧
    (s.ib.length ≠ s.cap → exec (.iput imm) s = .next { s with ib := s.ib ++ [imm], err := 0#4 })

/-- R138, with the random source in the model's form (log 3): PAD. -/
def Obligations.PadAppendsSentinelAndFiller : Prop :=
  ∀ s : State,
    (s.ib.length % 8 = 0 → exec .pad s = .next { s with err := 0#4 }) ∧
    (s.ib.length % 8 ≠ 0 → ∃ (filler : List Byte) (g : Rng), Drawn s (7 - s.ib.length % 8) filler g ∧
      exec .pad s = .next { s with ib := s.ib ++ 1#8 :: filler, rng := g, err := 0#4 })

/-- R139 with R32: LDBLK. -/
def Obligations.LdblkLoadsBlock : Prop :=
  ∀ (n : BitVec 16) (s : State),
    (s.ib.length < 8 * n.toNat + 8 → exec (.ldblk n) s = .next (raised s 8)) ∧
    (8 * n.toNat + 8 ≤ s.ib.length → ∃ t, exec (.ldblk n) s = .next t ∧
      (∀ (r : Reg) (hi lo : Byte), s.ib[8 * n.toNat + 2 * r.bits.toNat]? = some hi →
        s.ib[8 * n.toNat + 2 * r.bits.toNat + 1]? = some lo → (t.getX r).toNat = 256 * hi.toNat + lo.toNat) ∧
      t = { s with x := t.x, err := 0#4 })

/-- R140 with R33 and R130: STHEX, character by character. -/
def Obligations.SthexAppendsHexText : Prop :=
  ∀ s : State,
    (s.cap < s.ob.length + 16 → exec .sthex s = .next (raised s 7)) ∧
    (s.ob.length + 16 ≤ s.cap → ∃ chars : List Byte, exec .sthex s = .next { s with ob := s.ob ++ chars, err := 0#4 } ∧
      chars.length = 16 ∧
      ∀ (r : Reg) (d : Nat), d < 4 →
        ((chars[4 * r.bits.toNat + d]?).map BitVec.toNat =
          some (let v := (s.getX r).toNat / 16 ^ (3 - d) % 16; if v ≤ 9 then 0x30 + v else 0x37 + v)))

/-- R141 with R133: LDHEX, its three cases in order. -/
def Obligations.LdhexParsesGroup : Prop :=
  ∀ (n : BitVec 16) (s : State),
    (s.ib.length < 16 * n.toNat + 16 → exec (.ldhex n) s = .next (raised s 8)) ∧
    (16 * n.toNat + 16 ≤ s.ib.length →
      (∃ c ∈ s.memRead .IB (16 * n.toNat) 16, hexVal c = none) → exec (.ldhex n) s = .next (raised s 4)) ∧
    (16 * n.toNat + 16 ≤ s.ib.length →
      (∀ c ∈ s.memRead .IB (16 * n.toNat) 16, hexVal c ≠ none) → ∃ t, exec (.ldhex n) s = .next t ∧
        (∀ (r : Reg) (v0 v1 v2 v3 : Nibble),
          (s.readByte .IB (16 * n.toNat + 4 * r.bits.toNat)).bind hexVal = some v0 →
          (s.readByte .IB (16 * n.toNat + 4 * r.bits.toNat + 1)).bind hexVal = some v1 →
          (s.readByte .IB (16 * n.toNat + 4 * r.bits.toNat + 2)).bind hexVal = some v2 →
          (s.readByte .IB (16 * n.toNat + 4 * r.bits.toNat + 3)).bind hexVal = some v3 →
          (t.getX r).toNat = v0.toNat * 4096 + v1.toNat * 256 + v2.toNat * 16 + v3.toNat) ∧
        t = { s with x := t.x, err := 0#4 })

/-- R142 with R32: STBLK. -/
def Obligations.StblkAppendsRawBytes : Prop :=
  ∀ s : State,
    (s.cap < s.ob.length + 8 → exec .stblk s = .next (raised s 7)) ∧
    (s.ob.length + 8 ≤ s.cap → ∃ bytes : List Byte, exec .stblk s = .next { s with ob := s.ob ++ bytes, err := 0#4 } ∧
      bytes.length = 8 ∧
      ∀ r : Reg, (bytes[2 * r.bits.toNat]?).map BitVec.toNat = some ((s.getX r).toNat / 256) ∧
        (bytes[2 * r.bits.toNat + 1]?).map BitVec.toNat = some ((s.getX r).toNat % 256))

/-- R143 with R134: UNPAD cuts OB at its first `0x01`, or leaves it whole. -/
def Obligations.UnpadCutsAtFirstSentinel : Prop :=
  ∀ s : State, ∃ n : Nat, exec .unpad s = .next { s with ob := s.ob.take n, err := 0#4 } ∧ n ≤ s.ob.length ∧
    (∀ i, i < n → s.readByte .OB i ≠ some 1#8) ∧ (n < s.ob.length → s.readByte .OB n = some 1#8)

/-- R130: the characters' codes, and which bytes are hexadecimal characters. -/
def Obligations.HexCharacterCodes : Prop :=
  (∀ v : Nibble, (hexChar v).toNat = if v.toNat ≤ 9 then 0x30 + v.toNat else 0x37 + v.toNat) ∧
  (∀ c : Byte, (hexVal c).map BitVec.toNat =
    if 0x30 ≤ c.toNat ∧ c.toNat ≤ 0x39 then some (c.toNat - 0x30)
    else if 0x41 ≤ c.toNat ∧ c.toNat ≤ 0x46 then some (c.toNat - 0x37)
    else if 0x61 ≤ c.toNat ∧ c.toNat ≤ 0x66 then some (c.toNat - 0x57)
    else none)

/-- R133: `ParseHex(ToHex(b)) = b`, and `ToHex(ParseHex(chars))` is `chars` with `a..f` changed to upper case. -/
def Obligations.HexTextRoundTrips : Prop :=
  (∀ p : Block, parseHex (toHex p) = some p) ∧
  (∀ chars : List Byte, chars.length = 16 → (∀ c ∈ chars, hexVal c ≠ none) →
    ∃ p, parseHex chars = some p ∧
      toHex p = chars.map fun c => if 0x61 ≤ c.toNat ∧ c.toNat ≤ 0x66 then c - 0x20#8 else c)

/-- R132: `SplitBlock(JoinBlock(b), 0) = b` and `JoinBlock(SplitBlock(buf, n)) = buf[8n .. 8n+7]`. -/
def Obligations.BlockBytesRoundTrip : Prop :=
  (∀ (p : Block) (h : 8 * 0 + 8 ≤ (joinBlock p).length), splitBlock (joinBlock p) 0 h = p) ∧
  (∀ (buf : List Byte) (n : Nat) (h : 8 * n + 8 ≤ buf.length), joinBlock (splitBlock buf n h) = (buf.drop (8 * n)).take 8)

/-- R135: (a) a message with no `0x01` is recovered whole; (b) another is cut at its first `0x01`. -/
def Obligations.UnpadRecoversPaddedMessage : Prop :=
  ∀ msg filler : List Byte, (msg.length % 8 ≠ 0 → filler.length = 7 - msg.length % 8) →
    ((∀ c ∈ msg, c ≠ 1#8) → unpad (padMsg msg filler) = msg) ∧
    (∀ p, p < msg.length → msg[p]? = some 1#8 → (∀ q, q < p → msg[q]? ≠ some 1#8) →
      unpad (padMsg msg filler) = msg.take p)

/-- R37: PAD, UNPAD and KEXP are idempotent: given twice in a row, the second changes nothing. -/
def Obligations.PadUnpadKexpIdempotent : Prop :=
  ∀ (i : Instr) (s t : State), i = .pad ∨ i = .unpad ∨ i = .kexp → exec i s = .next t → exec i t = .next t

/-- R144: the codec's commands never touch KB, K or KVALID. -/
def Obligations.CodecLeavesKeyMaterial : Prop :=
  ∀ (i : Instr) (s t : State), i.mnemonic ∈ [.IPUT, .PAD, .LDBLK, .STHEX, .LDHEX, .STBLK, .UNPAD] →
    exec i s = .next t → t.kb = s.kb ∧ t.k = s.k ∧ t.kvalid = s.kvalid

/-- The frame of the buffers: a command that neither empties nor cuts a buffer changes no byte but those it stores, at the
address and in the number `storedSpan` gives in the state before. -/
def Obligations.BytesOutsideStoredSpanUnchanged : Prop :=
  ∀ (i : Instr) (s t : State), i.mnemonic ∉ [.CLR, .UNPAD, .ENCMSG, .DECMSG] → exec i s = .next t →
    ∀ (sp : Space) (address : Nat), ¬ inStoredSpan i s sp address → t.readByte sp address = s.readByte sp address

/-! ## Message commands and CLR -/

/-- R156, R178: ENCMSG's checks in their order. -/
def Obligations.EncmsgChecksInOrder : Prop :=
  ∀ s : State,
    (s.kb.length = 0 → exec .encmsg s = .next (raised s 1)) ∧
    (s.kb.length ≠ 0 → s.ib.length = 0 → exec .encmsg s = .next (raised s 2)) ∧
    (s.kb.length ≠ 0 → s.ib.length ≠ 0 → s.cap < 2 * (8 * ((s.ib.length + 7) / 8)) →
      exec .encmsg s = .next (raised s 7))

/-- R156 in functional form, with the random source in the model's form (log 3): ENCMSG. -/
def Obligations.EncmsgEncryptsMessage : Prop :=
  ∀ s : State, 1 ≤ s.kb.length → s.kb.length ≤ 16 → 1 ≤ s.ib.length → 2 * (8 * ((s.ib.length + 7) / 8)) ≤ s.cap →
    ∃ (filler : List Byte) (g : Rng) (last : Block),
      Drawn s (if s.ib.length % 8 = 0 then 0 else 7 - s.ib.length % 8) filler g ∧
      ((encodeBlocks s.ib filler).map (encBlock (keySchedule s.kb))).getLast? = some last ∧
      exec .encmsg s = .next { s with
        x := last, k := Vector.replicate 52 0, kvalid := false, kb := [], ib := [],
        ob := serialize ((encodeBlocks s.ib filler).map (encBlock (keySchedule s.kb))), rng := g, err := 0#4 }

/-- R157 (a), (b): the length and the characters of ENCMSG's output. -/
def Obligations.EncmsgOutputIsUppercaseHex : Prop :=
  ∀ s t : State, exec .encmsg s = .next t → t.err = 0#4 →
    t.ob.length = 2 * (8 * ((s.ib.length + 7) / 8)) ∧ t.ob.length = 16 * ((s.ib.length + 7) / 8) ∧
    ∀ c ∈ t.ob, (0x30 ≤ c.toNat ∧ c.toNat ≤ 0x39) ∨ (0x41 ≤ c.toNat ∧ c.toNat ≤ 0x46)

/-- R157 (c), with the random source in the model's form (log 3): two runs that differ only in the random source give the
same output but for the last group; the same output when the message's length is 0 or 7 modulo 8; and otherwise different
outputs where the listed answers they take differ. -/
def Obligations.EncmsgFillerReachesOnlyLastGroup : Prop :=
  ∀ (s : State) (g : Rng) (t u : State), exec .encmsg s = .next t → exec .encmsg { s with rng := g } = .next u →
    t.err = 0#4 →
    u.err = 0#4 ∧ t.ob.length = u.ob.length ∧ t.ob.take (t.ob.length - 16) = u.ob.take (t.ob.length - 16) ∧
    (s.ib.length % 8 = 0 ∨ s.ib.length % 8 = 7 → t.ob = u.ob) ∧
    (s.ib.length % 8 ≠ 0 → 7 - s.ib.length % 8 ≤ s.rng.answers.length → 7 - s.ib.length % 8 ≤ g.answers.length →
      s.rng.answers.take (7 - s.ib.length % 8) ≠ g.answers.take (7 - s.ib.length % 8) → t.ob ≠ u.ob)

/-- R157 (d): ENCMSG is the command sequence KEXP; PAD; CLR 4; LDBLK n; ENCB; STHEX for each block; CLR 3, for the messages
whose block indices fit LDBLK's 16-bit operand, with the random source in the model's form (log 3). -/
def Obligations.EncmsgIsItsCommandSequence : Prop :=
  ∀ s : State, 1 ≤ s.kb.length → 1 ≤ s.ib.length → 2 * (8 * ((s.ib.length + 7) / 8)) ≤ s.cap →
    (s.ib.length + 7) / 8 ≤ 65536 → exec .encmsg s = hostRun (encmsgSequence ((s.ib.length + 7) / 8)) s

/-- R201: a message is accepted by ENCMSG exactly when it is at most `CAP / 2` bytes long. -/
def Obligations.EncmsgAcceptsUpToHalfCapacity : Prop :=
  ∀ s : State, 1 ≤ s.kb.length → 1 ≤ s.ib.length →
    ((∃ t, exec .encmsg s = .next t ∧ t.err = 0#4) ↔ s.ib.length ≤ s.cap / 2)

/-- R158, R178: DECMSG's checks in their order. -/
def Obligations.DecmsgChecksInOrder : Prop :=
  ∀ s : State,
    (s.kb.length = 0 → exec .decmsg s = .next (raised s 1)) ∧
    (s.kb.length ≠ 0 → s.ib.length = 0 → exec .decmsg s = .next (raised s 3)) ∧
    (s.kb.length ≠ 0 → s.ib.length ≠ 0 → (s.ib.length % 16 ≠ 0 ∨ ∃ c ∈ s.ib, hexVal c = none) →
      exec .decmsg s = .next (raised s 4))

/-- R158 in functional form: DECMSG. -/
def Obligations.DecmsgDecryptsMessage : Prop :=
  ∀ s : State, 1 ≤ s.kb.length → s.kb.length ≤ 16 → 1 ≤ s.ib.length → s.ib.length ≤ s.cap → s.ib.length % 16 = 0 →
    (∀ c ∈ s.ib, hexVal c ≠ none) →
    ∃ (blocks : List Block) (last : Block),
      deserialize s.ib = some blocks ∧
      (blocks.map (decBlock (keySchedule s.kb))).getLast? = some last ∧
      exec .decmsg s = .next { s with
        x := last, k := Vector.replicate 52 0, kvalid := false, kb := [], ib := [],
        ob := decodeBytes (blocks.map (decBlock (keySchedule s.kb))), err := 0#4 }

/-- R159 (a), (c): the length of DECMSG's output. -/
def Obligations.DecmsgOutputLength : Prop :=
  ∀ (s t : State) (blocks : List Block), s.ib.length ≤ s.cap → exec .decmsg s = .next t → t.err = 0#4 →
    deserialize s.ib = some blocks →
    t.ob.length ≤ s.ib.length / 2 ∧
    (t.ob.length = s.ib.length / 2 ↔
      ∀ c ∈ (blocks.map (decBlock (keySchedule s.kb))).flatMap joinBlock, c ≠ 1#8) ∧
    (((blocks.map (decBlock (keySchedule s.kb))).flatMap joinBlock).head? = some 1#8 → t.ob = [])

/-- R159 (d): DECMSG is the command sequence KEXP; CLR 4; LDHEX n; DECB; STBLK for each group; UNPAD; CLR 3, for the texts
whose group indices fit LDHEX's 16-bit operand. -/
def Obligations.DecmsgIsItsCommandSequence : Prop :=
  ∀ s : State, 1 ≤ s.kb.length → 1 ≤ s.ib.length → s.ib.length ≤ s.cap → s.ib.length % 16 = 0 →
    (∀ c ∈ s.ib, hexVal c ≠ none) → s.ib.length / 16 ≤ 65536 →
    exec .decmsg s = hostRun (decmsgSequence (s.ib.length / 16)) s

/-- R160: the round trip at the byte level; that the random source always answers
ENCMSG is the model's form of R186 (log 3). -/
def Obligations.MessageRoundTrip : Prop :=
  ∀ s : State, 1 ≤ s.kb.length → s.kb.length ≤ 16 → 1 ≤ s.ib.length → (∀ c ∈ s.ib, c ≠ 1#8) →
    2 * (8 * ((s.ib.length + 7) / 8)) ≤ s.cap →
    ∃ t, exec .encmsg s = .next t ∧ t.err = 0#4 ∧
      ∀ u : State, u.kb = s.kb → u.ib = t.ob → u.ib.length ≤ u.cap →
        ∃ v, exec .decmsg u = .next v ∧ v.err = 0#4 ∧ v.ob = s.ib

/-- R155 and the source's round-trip property (R160): the host's `decrypt` of what its `encrypt` returned is the plaintext,
for every escaping step with the two properties of R6, from any two engine states. Characters and their codes are log 12
(PRESUMED), and the random source that always answers is log 3. -/
def Obligations.HostDecryptReturnsPlaintext : Prop :=
  ∀ (Text : Type) (escape : Text → List Byte) (unescape : List Byte → Text) (plaintext key : Text) (s u : State),
    (∀ x, unescape (escape x) = x) → (∀ c ∈ escape plaintext, c ≠ 1#8) → 1 ≤ (escape plaintext).length →
    1 ≤ (escape key).length → (escape key).length ≤ 16 →
    2 * (8 * (((escape plaintext).length + 7) / 8)) ≤ s.cap → 2 * (8 * (((escape plaintext).length + 7) / 8)) ≤ u.cap →
    ∃ (ciphertext : List Char) (s' u' : State), hostEncrypt escape plaintext key s = some (.ok ciphertext, s') ∧
      ciphertext.length = 16 * (((escape plaintext).length + 7) / 8) ∧
      hostDecrypt escape unescape ciphertext key u = some (.ok plaintext, u')

/-- R161: CLR, mask bit by mask bit, on every mask that has a word; and `CLR 15` leaves the reset state except for `ERRLOG`. -/
def Obligations.ClrClearsMaskedParts : Prop :=
  (∀ (mask : BitVec 16) (s : State), (Instr.clr mask).wellFormed = true → exec (.clr mask) s = .next { s with
    kb := if mask.getLsbD 0 then [] else s.kb
    k := if mask.getLsbD 0 then Vector.replicate 52 0 else s.k
    kvalid := if mask.getLsbD 0 then false else s.kvalid
    ib := if mask.getLsbD 1 then [] else s.ib
    ob := if mask.getLsbD 2 then [] else s.ob
    x := if mask.getLsbD 3 then ⟨0, 0, 0, 0⟩ else s.x
    err := 0#4 }) ∧
  (∀ s : State, exec (.clr 15) s =
    .next { State.resetWith s.cfg with errlog := s.errlog, rng := s.rng, port := s.port })

/-! ## Whole-machine rules -/

/-- R176: whatever command or word reports an error changes `ERR` and one bit of `ERRLOG`, and nothing else. -/
def Obligations.ErrorsChangeOnlyErrAndErrlog : Prop :=
  (∀ (i : Instr) (s t : State), exec i s = .next t → t.err ≠ 0#4 →
    1 ≤ t.err.toNat ∧ t.err.toNat ≤ 9 ∧ t = raised s t.err.toNat) ∧
  (∀ (w : CommandWord) (s t : State), execWord w s = .next t → t.err ≠ 0#4 →
    1 ≤ t.err.toNat ∧ t.err.toNat ≤ 9 ∧ t = raised s t.err.toNat)

/-- R170, R178: which codes each command can report, in the states R17 allows. -/
def Obligations.CommandsReportOnlyTheirErrors : Prop :=
  ∀ (i : Instr) (s t : State), s.ib.length ≤ s.cap → exec i s = .next t → t.err.toNat ∈ reportable i.mnemonic

/-- R23, over the model's steps (log 1): no step but reset clears a bit of `ERRLOG`. -/
def Obligations.OnlyResetClearsErrlog : Prop :=
  ∀ s t : State, step s = .next t → (∀ rest, s.port ≠ .reset :: rest) →
    ∀ c, s.errlog.getLsbD c = true → t.errlog.getLsbD c = true

/-- R24: what the host sees, and that neither the bytes of KB and IB nor the subkeys are in it. -/
def Obligations.HostViewIsStatusDataAndOutput : Prop :=
  ∀ (s : State) (kb ib : List Byte) (k : Subkeys), kb.length = s.kb.length → ib.length = s.ib.length →
    ({ s with kb := kb, ib := ib, k := k } : State).hostView = s.hostView ∧
    s.hostView = { err := s.err, errlog := s.errlog, kvalid := s.kvalid, klen := s.kb.length, ilen := s.ib.length,
                   olen := s.ob.length, x := s.x, ob := s.ob } ∧
    ∀ i, s.hostReadOB i = s.ob[i]?

/-- The invariant holds after reset, for every capacity (R14, R16, R17, R22, R23, R190). -/
def Obligations.InvariantHoldsAfterReset : Prop := (∀ c : Config, (State.resetWith c).Inv) ∧ State.reset.Inv

/-- R14 and R16, R17, R22, R23, over the model's steps (log 1): every step keeps the invariant. -/
def Obligations.EveryStepKeepsInvariant : Prop := ∀ s t : State, s.Inv → step s = .next t → t.Inv

/-- R177, over the model's steps (logs 1, 3): from every state with the invariant, whatever the host gives, the machine runs as
many steps as one likes without stopping, keeps the invariant and never changes its capacity. -/
def Obligations.EveryRunCompletes : Prop :=
  ∀ (n : Nat) (s : State), s.Inv → RunsTo n s fun t => t.Inv ∧ t.cfg = s.cfg
end

