-- ==== Sys2Proof/Laws/Arithmetic.lean ====
section
/-! SUPPORT. What the arithmetic primitives compute, as exact integers (R70 to R73): the values 1..65536 a 16-bit code stands
for in a multiplication, and the inverse's power by the spec's formula. -/

namespace Sys2Proof.Machine

theorem toNat_add (x y : Word) : (add x y).toNat = (x.toNat + y.toNat) % 65536 := by
  simp [add]

theorem add_eq (x y : Word) : add x y = x + y := by
  apply BitVec.eq_of_toNat_eq; simp [toNat_add]

theorem toNat_ainv (x : Word) : (ainv x).toNat = (65536 - x.toNat) % 65536 := by
  simp [ainv]

theorem ainv_eq (x : Word) : ainv x = -x := by
  apply BitVec.eq_of_toNat_eq; simp [toNat_ainv]

theorem mulValue_pos (x : Word) : 1 ≤ mulValue x := by
  unfold mulValue; split
  · omega
  · rename_i h
    have : x.toNat ≠ 0 := fun h0 => h (BitVec.eq_of_toNat_eq (by simpa using h0))
    omega

theorem mulValue_le (x : Word) : mulValue x ≤ 65536 := by
  unfold mulValue; split
  · omega
  · have := x.isLt; omega

theorem mulFold_mulValue (x : Word) : mulFold (mulValue x) = x := by
  have hx := x.isLt
  unfold mulValue mulFold
  split
  · simp_all
  · rw [if_neg (by omega)]; simp

theorem mulValue_mulFold (p : Nat) (h1 : 1 ≤ p) (h2 : p ≤ 65536) : mulValue (mulFold p) = p := by
  unfold mulFold
  split
  · simp_all [mulValue]
  · have : p % 65536 = p := Nat.mod_eq_of_lt (by omega)
    have hne : BitVec.ofNat 16 p ≠ 0 := by
      intro h
      have := congrArg BitVec.toNat h
      simp at this
      omega
    simp only [mulValue, if_neg hne, BitVec.toNat_ofNat]
    omega

theorem mulValue_injective (x y : Word) (h : mulValue x = mulValue y) : x = y := by
  rw [← mulFold_mulValue x, h, mulFold_mulValue]

theorem prime_65537 : Nat.Prime 65537 := by norm_num

/-- A product of two values is never 0 modulo 65537, so it folds back without loss (R71: "p in 1..65536, never 0"). -/
theorem mulValue_multiply (x y : Word) : mulValue (multiply x y) = mulValue x * mulValue y % 65537 := by
  apply mulValue_mulFold
  · have hx := mulValue_pos x; have hy := mulValue_pos y
    have hx' := mulValue_le x; have hy' := mulValue_le y
    rcases Nat.eq_zero_or_pos (mulValue x * mulValue y % 65537) with h | h
    · rcases (Nat.Prime.dvd_mul prime_65537).mp (Nat.dvd_of_mod_eq_zero h) with h | h
      · exact absurd (Nat.le_of_dvd hx h) (by omega)
      · exact absurd (Nat.le_of_dvd hy h) (by omega)
    · exact h
  · have := Nat.mod_lt (mulValue x * mulValue y) (show 65537 > 0 by omega); omega

theorem mulValue_one : mulValue 1 = 1 := by decide

/-- The square-and-multiply chain is the power (R73, R82, log 8). -/
theorem inversePower_eq (x : Nat) (n : Nat) : inversePower x n % 65537 = x ^ (2 ^ (n + 1) - 1) % 65537 := by
  induction n with
  | zero => simp [inversePower]
  | succ n ih =>
    have e : 2 ^ (n + 1 + 1) - 1 = (2 ^ (n + 1) - 1) + (2 ^ (n + 1) - 1) + 1 := by
      have : 1 ≤ 2 ^ (n + 1) := Nat.one_le_two_pow
      rw [pow_succ 2 (n + 1)]; omega
    rw [e, pow_succ, pow_add]
    simp only [inversePower, Nat.mod_mod]
    rw [Nat.mul_mod, Nat.mod_mod, Nat.mul_mod (inversePower x n), ih, ← Nat.mul_mod]
    exact Nat.ModEq.mul_right x (Nat.ModEq.mul (Nat.mod_modEq _ _) (Nat.mod_modEq _ _))

theorem inversePower_lt (x n : Nat) (hx : x < 65537) : inversePower x n < 65537 := by
  cases n with
  | zero => exact hx
  | succ n => exact Nat.mod_lt _ (by omega)

/-- `minv` on a value other than 0, by the spec's own formula (R73). -/
theorem inversePower_fifteen (x : Word) : inversePower x.toNat 15 = x.toNat ^ 65535 % 65537 := by
  have h := inversePower_eq x.toNat 15
  have e : 2 ^ (15 + 1) - 1 = 65535 := by norm_num
  rw [Nat.mod_eq_of_lt (inversePower_lt _ _ (by have := x.isLt; omega)), e] at h
  exact h

end Sys2Proof.Machine
end

