-- ==== Sys2Proof/Laws/Asm.lean ====
section
/-! SUPPORT. Reading back what the assembler's printer writes: a number from its decimal digits, a register from its name, and
texts of plain characters through the line's comment, blank and comma handling (R58). -/

namespace Sys2Proof.Machine

/-- A character with no part in the line's syntax: no blank, no comma, no `;`. -/
def plainChar (c : Char) : Bool := !isBlank c && c != ',' && c != ';'

theorem digitChar_facts (d : Nat) (h : d < 10) :
    digitValue 10 d.digitChar = some d ∧ plainChar d.digitChar = true ∧ d.digitChar ≠ 'x' := by
  interval_cases d <;> decide

theorem digitsValue_append (base : Nat) (t u : List Char) (acc : Nat) :
    digitsValue base (t ++ u) acc = (digitsValue base t acc).bind fun v => digitsValue base u v := by
  induction t generalizing acc with
  | nil => rfl
  | cons c r ih =>
    simp only [List.cons_append, digitsValue]
    cases digitValue base c <;> simp [ih]

theorem digitsValue_toDigits (n : Nat) : digitsValue 10 (Nat.toDigits 10 n) 0 = some n := by
  induction n using Nat.strong_induction_on with
  | _ n ih =>
    rw [Nat.toDigits_eq_if (by omega)]
    split
    · next h => simp [digitsValue, (digitChar_facts n h).1]
    · rw [digitsValue_append, ih (n / 10) (by omega)]
      simp only [digitsValue, Option.bind_some, (digitChar_facts (n % 10) (by omega)).1, Option.some.injEq]
      omega

theorem toDigits_plain (n : Nat) : ∀ c ∈ Nat.toDigits 10 n, plainChar c = true ∧ c ≠ 'x' := by
  induction n using Nat.strong_induction_on with
  | _ n ih =>
    rw [Nat.toDigits_eq_if (by omega)]
    split
    · next h => simpa using (digitChar_facts n h).2
    · intro c hc
      rcases List.mem_append.mp hc with hc | hc
      · exact ih (n / 10) (by omega) c hc
      · rw [List.mem_singleton.mp hc]; exact (digitChar_facts (n % 10) (by omega)).2

theorem parseNumber_toDigits (n : Nat) : parseNumber (Nat.toDigits 10 n) = some n := by
  have h := digitsValue_toDigits n
  have hx := toDigits_plain n
  have hn : Nat.toDigits 10 n ≠ [] := Nat.toDigits_ne_nil
  generalize Nat.toDigits 10 n = t at *
  unfold parseNumber
  split
  · exact absurd rfl hn
  · exact absurd rfl (hx 'x' (by simp)).2
  · exact h

theorem parseBelow_toDigits {n bound : Nat} (h : n < bound) : parseBelow bound (Nat.toDigits 10 n) = some n := by
  simp [parseBelow, parseNumber_toDigits, h]

theorem parseImm16_toDigits (v : BitVec 16) : parseImm16 (Nat.toDigits 10 v.toNat) = some v := by
  rw [parseImm16, parseBelow_toDigits (show v.toNat < 65536 from v.isLt)]; simp

theorem parseImm8_toDigits (v : BitVec 8) : parseImm8 (Nat.toDigits 10 v.toNat) = some v := by
  rw [parseImm8, parseBelow_toDigits (show v.toNat < 256 from v.isLt)]; simp

theorem parseReg_regText (r : Reg) : parseReg (regText r) = some r := by cases r <;> rfl

theorem regText_plain (r : Reg) : ∀ c ∈ regText r, plainChar c = true :=
  List.all_eq_true.mp (by cases r <;> rfl)

theorem regText_ne_nil (r : Reg) : regText r ≠ [] := by cases r <;> decide

theorem parseMnemonic_text (m : Mnemonic) : parseMnemonic (mnemonicText m) = some m := by cases m <;> decide

theorem mnemonicText_plain (m : Mnemonic) : ∀ c ∈ mnemonicText m, plainChar c = true :=
  List.all_eq_true.mp (by cases m <;> rfl)

/-- Nothing to trim where neither end is a blank. -/
theorem trim_of_ends {t : List Char} (h : ∀ c, t.head? = some c → isBlank c = false)
    (hl : ∀ c, t.getLast? = some c → isBlank c = false) : trim t = t := by
  have e : ∀ u : List Char, (∀ c, u.head? = some c → isBlank c = false) → u.dropWhile isBlank = u := by
    intro u hu
    cases u with
    | nil => rfl
    | cons c r => rw [List.dropWhile_cons, if_neg (by simp [hu c rfl])]
  unfold trim
  rw [e t h, e t.reverse (by simpa using hl), List.reverse_reverse]

/-- A text with no separator is one piece. -/
theorem splitOnChar_plain {sep : Char → Bool} {t : List Char} (h : ∀ c ∈ t, sep c = false) : splitOnChar sep t = [t] := by
  induction t with
  | nil => rfl
  | cons c r ih =>
    simp only [splitOnChar]
    rw [ih fun d hd => h d (by simp [hd])]
    simp [h c (by simp)]

/-- The piece before the first separator comes first. -/
theorem splitOnChar_append {sep : Char → Bool} {t u : List Char} {c : Char} (h : ∀ d ∈ t, sep d = false)
    (hc : sep c = true) : splitOnChar sep (t ++ c :: u) = t :: splitOnChar sep u := by
  have hne : ∀ v, splitOnChar sep v ≠ [] := by
    intro v
    cases v with
    | nil => simp [splitOnChar]
    | cons d r =>
      simp only [splitOnChar]
      split <;> split <;> simp
  induction t with
  | nil =>
    simp only [List.nil_append, splitOnChar]
    cases hu : splitOnChar sep u with
    | nil => exact absurd hu (hne u)
    | cons a b => simp [hc]
  | cons d r ih =>
    simp only [List.cons_append, splitOnChar]
    rw [ih fun e he => h e (by simp [he])]
    simp [h d (by simp)]

end Sys2Proof.Machine
end

