-- ==== Sys2Proof/Laws/Decode.lean ====
section
/-! SUPPORT. The fields of an encoded word are what was put there, each format's mask leaves the opcode, and a word the mask
test accepts is the encoding of its own fields (R51, R52). -/

namespace Sys2Proof

@[simp] theorem regOfBits_bits (r : Reg) : regOfBits r.bits = r := by cases r <;> rfl

@[simp] theorem bits_regOfBits (b : BitVec 2) : (regOfBits b).bits = b := by
  revert b; decide

/-! Format Z. -/

theorem opField_encodeZ (op : BitVec 8) : opField (encodeZ op) = op := by
  apply BitVec.eq_of_getLsbD_eq
  intro i hi
  simp [opField, encodeZ, place]
  interval_cases i <;> simp

theorem mask_encodeZ (op : BitVec 8) : (encodeZ op) &&& Format.Z.mask = matchOf op := by
  apply BitVec.eq_of_getLsbD_eq
  intro i hi
  simp [matchOf, Format.mask, encodeZ, place]
  interval_cases i <;> simp

theorem encodeZ_fields {w : CommandWord} {op : BitVec 8} (h : w &&& Format.Z.mask = matchOf op) :
    encodeZ op = w := by
  apply BitVec.eq_of_getLsbD_eq
  intro i hi
  have hb := congrArg (fun v => v.getLsbD i) h
  simp [matchOf, Format.mask, place] at hb
  simp [encodeZ, place]
  interval_cases i <;> simp_all

/-! Format R. -/

theorem opField_encodeR (op : BitVec 8) (rd rs1 rs2 : Reg) : opField (encodeR op rd rs1 rs2) = op := by
  apply BitVec.eq_of_getLsbD_eq
  intro i hi
  simp [opField, encodeR, place]
  interval_cases i <;> simp

theorem mask_encodeR (op : BitVec 8) (rd rs1 rs2 : Reg) : (encodeR op rd rs1 rs2) &&& Format.R.mask = matchOf op := by
  apply BitVec.eq_of_getLsbD_eq
  intro i hi
  simp [matchOf, Format.mask, encodeR, place]
  interval_cases i <;> simp

theorem rdField_encodeR (op : BitVec 8) (rd rs1 rs2 : Reg) : rdField (encodeR op rd rs1 rs2) = rd := by
  have h : (encodeR op rd rs1 rs2).extractLsb' 22 2 = rd.bits := by
    apply BitVec.eq_of_getLsbD_eq
    intro i hi
    simp [encodeR, place]
    interval_cases i <;> simp
  simp [rdField, h]

theorem rs1Field_encodeR (op : BitVec 8) (rd rs1 rs2 : Reg) : rs1Field (encodeR op rd rs1 rs2) = rs1 := by
  have h : (encodeR op rd rs1 rs2).extractLsb' 20 2 = rs1.bits := by
    apply BitVec.eq_of_getLsbD_eq
    intro i hi
    simp [encodeR, place]
    interval_cases i <;> simp
  simp [rs1Field, h]

theorem rs2Field_encodeR (op : BitVec 8) (rd rs1 rs2 : Reg) : rs2Field (encodeR op rd rs1 rs2) = rs2 := by
  have h : (encodeR op rd rs1 rs2).extractLsb' 18 2 = rs2.bits := by
    apply BitVec.eq_of_getLsbD_eq
    intro i hi
    simp [encodeR, place]
    interval_cases i <;> simp
  simp [rs2Field, h]

theorem encodeR_fields {w : CommandWord} {op : BitVec 8} (h : w &&& Format.R.mask = matchOf op) :
    encodeR op (rdField w) (rs1Field w) (rs2Field w) = w := by
  apply BitVec.eq_of_getLsbD_eq
  intro i hi
  have hb := congrArg (fun v => v.getLsbD i) h
  simp [matchOf, Format.mask, place] at hb
  simp [encodeR, rdField, rs1Field, rs2Field, place]
  interval_cases i <;> simp_all

/-! Format U. -/

theorem opField_encodeU (op : BitVec 8) (rd rs1 : Reg) : opField (encodeU op rd rs1) = op := by
  apply BitVec.eq_of_getLsbD_eq
  intro i hi
  simp [opField, encodeU, place]
  interval_cases i <;> simp

theorem mask_encodeU (op : BitVec 8) (rd rs1 : Reg) : (encodeU op rd rs1) &&& Format.U.mask = matchOf op := by
  apply BitVec.eq_of_getLsbD_eq
  intro i hi
  simp [matchOf, Format.mask, encodeU, place]
  interval_cases i <;> simp

theorem rdField_encodeU (op : BitVec 8) (rd rs1 : Reg) : rdField (encodeU op rd rs1) = rd := by
  have h : (encodeU op rd rs1).extractLsb' 22 2 = rd.bits := by
    apply BitVec.eq_of_getLsbD_eq
    intro i hi
    simp [encodeU, place]
    interval_cases i <;> simp
  simp [rdField, h]

theorem rs1Field_encodeU (op : BitVec 8) (rd rs1 : Reg) : rs1Field (encodeU op rd rs1) = rs1 := by
  have h : (encodeU op rd rs1).extractLsb' 20 2 = rs1.bits := by
    apply BitVec.eq_of_getLsbD_eq
    intro i hi
    simp [encodeU, place]
    interval_cases i <;> simp
  simp [rs1Field, h]

theorem encodeU_fields {w : CommandWord} {op : BitVec 8} (h : w &&& Format.U.mask = matchOf op) :
    encodeU op (rdField w) (rs1Field w) = w := by
  apply BitVec.eq_of_getLsbD_eq
  intro i hi
  have hb := congrArg (fun v => v.getLsbD i) h
  simp [matchOf, Format.mask, place] at hb
  simp [encodeU, rdField, rs1Field, place]
  interval_cases i <;> simp_all

/-! Format I. -/

theorem opField_encodeI (op : BitVec 8) (rd : Reg) (imm : BitVec 16) : opField (encodeI op rd imm) = op := by
  apply BitVec.eq_of_getLsbD_eq
  intro i hi
  simp [opField, encodeI, place]
  interval_cases i <;> simp

theorem mask_encodeI (op : BitVec 8) (rd : Reg) (imm : BitVec 16) : (encodeI op rd imm) &&& Format.I.mask = matchOf op := by
  apply BitVec.eq_of_getLsbD_eq
  intro i hi
  simp [matchOf, Format.mask, encodeI, place]
  interval_cases i <;> simp

theorem rdField_encodeI (op : BitVec 8) (rd : Reg) (imm : BitVec 16) : rdField (encodeI op rd imm) = rd := by
  have h : (encodeI op rd imm).extractLsb' 22 2 = rd.bits := by
    apply BitVec.eq_of_getLsbD_eq
    intro i hi
    simp [encodeI, place]
    interval_cases i <;> simp
  simp [rdField, h]

theorem imm16Field_encodeI (op : BitVec 8) (rd : Reg) (imm : BitVec 16) : imm16Field (encodeI op rd imm) = imm := by
  apply BitVec.eq_of_getLsbD_eq
  intro i hi
  simp [imm16Field, encodeI, place]
  interval_cases i <;> simp

theorem encodeI_fields {w : CommandWord} {op : BitVec 8} (h : w &&& Format.I.mask = matchOf op) :
    encodeI op (rdField w) (imm16Field w) = w := by
  apply BitVec.eq_of_getLsbD_eq
  intro i hi
  have hb := congrArg (fun v => v.getLsbD i) h
  simp [matchOf, Format.mask, place] at hb
  simp [encodeI, rdField, imm16Field, place]
  interval_cases i <;> simp_all

/-! Format N. -/

theorem opField_encodeN (op : BitVec 8) (imm : BitVec 16) : opField (encodeN op imm) = op := by
  apply BitVec.eq_of_getLsbD_eq
  intro i hi
  simp [opField, encodeN, place]
  interval_cases i <;> simp

theorem mask_encodeN (op : BitVec 8) (imm : BitVec 16) : (encodeN op imm) &&& Format.N.mask = matchOf op := by
  apply BitVec.eq_of_getLsbD_eq
  intro i hi
  simp [matchOf, Format.mask, encodeN, place]
  interval_cases i <;> simp

theorem imm16Field_encodeN (op : BitVec 8) (imm : BitVec 16) : imm16Field (encodeN op imm) = imm := by
  apply BitVec.eq_of_getLsbD_eq
  intro i hi
  simp [imm16Field, encodeN, place]
  interval_cases i <;> simp

theorem encodeN_fields {w : CommandWord} {op : BitVec 8} (h : w &&& Format.N.mask = matchOf op) :
    encodeN op (imm16Field w) = w := by
  apply BitVec.eq_of_getLsbD_eq
  intro i hi
  have hb := congrArg (fun v => v.getLsbD i) h
  simp [matchOf, Format.mask, place] at hb
  simp [encodeN, imm16Field, place]
  interval_cases i <;> simp_all

/-! Format B. -/

theorem opField_encodeB (op : BitVec 8) (imm : BitVec 8) : opField (encodeB op imm) = op := by
  apply BitVec.eq_of_getLsbD_eq
  intro i hi
  simp [opField, encodeB, place]
  interval_cases i <;> simp

theorem mask_encodeB (op : BitVec 8) (imm : BitVec 8) : (encodeB op imm) &&& Format.B.mask = matchOf op := by
  apply BitVec.eq_of_getLsbD_eq
  intro i hi
  simp [matchOf, Format.mask, encodeB, place]
  interval_cases i <;> simp

theorem imm8Field_encodeB (op : BitVec 8) (imm : BitVec 8) : imm8Field (encodeB op imm) = imm := by
  apply BitVec.eq_of_getLsbD_eq
  intro i hi
  simp [imm8Field, encodeB, place]
  interval_cases i <;> simp

theorem encodeB_fields {w : CommandWord} {op : BitVec 8} (h : w &&& Format.B.mask = matchOf op) :
    encodeB op (imm8Field w) = w := by
  apply BitVec.eq_of_getLsbD_eq
  intro i hi
  have hb := congrArg (fun v => v.getLsbD i) h
  simp [matchOf, Format.mask, place] at hb
  simp [encodeB, imm8Field, place]
  interval_cases i <;> simp_all

end Sys2Proof
end

