-- ==== Sys2Proof/Laws/State.lean ====
section
/-! SUPPORT. One lemma per field per update of State, true by rfl, and the rewriting of the composed updates to the base
ones (setBlock, setBuffer, loadSchedule, dropSchedule, succeed, raise), so that no proof unfolds a record update. -/

namespace Sys2Proof.Machine

variable (s : State)

/-! The composed updates in base updates. -/

@[simp] theorem State.setX_eq (r : Reg) (v : Word) : s.setX r v = s.setBlock (s.x.set r v) := rfl
@[simp] theorem State.getX_eq (r : Reg) : s.getX r = s.x.get r := rfl
@[simp] theorem State.memAppend_eq (sp : Space) (b : List Byte) : s.memAppend sp b = s.setBuffer sp (s.buffer sp ++ b) := rfl
@[simp] theorem State.memTrunc_eq (sp : Space) (n : Nat) : s.memTrunc sp n = s.setBuffer sp ((s.buffer sp).take n) := rfl
@[simp] theorem State.wipeKey_eq : s.wipeKey = (s.setBuffer .KB []).dropSchedule := rfl
@[simp] theorem State.consume_eq : s.consume = ((s.setBuffer .KB []).dropSchedule).setBuffer .IB [] := rfl
@[simp] theorem State.buffer_KB : s.buffer .KB = s.kb := rfl
@[simp] theorem State.buffer_IB : s.buffer .IB = s.ib := rfl
@[simp] theorem State.buffer_OB : s.buffer .OB = s.ob := rfl
@[simp] theorem State.capacity_KB : s.capacity .KB = 16 := rfl
@[simp] theorem State.capacity_IB : s.capacity .IB = s.cap := rfl
@[simp] theorem State.capacity_OB : s.capacity .OB = s.cap := rfl

/-! The registers of a Block. -/

@[simp] theorem Block.get_set (p : Block) (r q : Reg) (v : Word) :
    (p.set r v).get q = if q = r then v else p.get q := by cases r <;> cases q <;> rfl

theorem Block.ext_get (p q : Block) (h : ∀ r, p.get r = q.get r) : p = q := by
  obtain ⟨a, b, c, d⟩ := p; obtain ⟨a', b', c', d'⟩ := q
  have ha := h .A; have hb := h .B; have hc := h .C; have hd := h .D
  simp only [Block.get] at ha hb hc hd
  simp [ha, hb, hc, hd]

/-! `setBlock`: the data registers. -/

@[simp] theorem State.setBlock_x (p : Block) : (s.setBlock p).x = p := rfl
@[simp] theorem State.setBlock_k (p : Block) : (s.setBlock p).k = s.k := rfl
@[simp] theorem State.setBlock_kvalid (p : Block) : (s.setBlock p).kvalid = s.kvalid := rfl
@[simp] theorem State.setBlock_kb (p : Block) : (s.setBlock p).kb = s.kb := rfl
@[simp] theorem State.setBlock_ib (p : Block) : (s.setBlock p).ib = s.ib := rfl
@[simp] theorem State.setBlock_ob (p : Block) : (s.setBlock p).ob = s.ob := rfl
@[simp] theorem State.setBlock_err (p : Block) : (s.setBlock p).err = s.err := rfl
@[simp] theorem State.setBlock_errlog (p : Block) : (s.setBlock p).errlog = s.errlog := rfl
@[simp] theorem State.setBlock_cfg (p : Block) : (s.setBlock p).cfg = s.cfg := rfl
@[simp] theorem State.setBlock_rng (p : Block) : (s.setBlock p).rng = s.rng := rfl
@[simp] theorem State.setBlock_port (p : Block) : (s.setBlock p).port = s.port := rfl
@[simp] theorem State.setBlock_cap (p : Block) : (s.setBlock p).cap = s.cap := rfl

/-! `setBuffer .KB`. -/

@[simp] theorem State.setBufferKB_x (b : List Byte) : (s.setBuffer .KB b).x = s.x := rfl
@[simp] theorem State.setBufferKB_k (b : List Byte) : (s.setBuffer .KB b).k = s.k := rfl
@[simp] theorem State.setBufferKB_kvalid (b : List Byte) : (s.setBuffer .KB b).kvalid = s.kvalid := rfl
@[simp] theorem State.setBufferKB_kb (b : List Byte) : (s.setBuffer .KB b).kb = b := rfl
@[simp] theorem State.setBufferKB_ib (b : List Byte) : (s.setBuffer .KB b).ib = s.ib := rfl
@[simp] theorem State.setBufferKB_ob (b : List Byte) : (s.setBuffer .KB b).ob = s.ob := rfl
@[simp] theorem State.setBufferKB_err (b : List Byte) : (s.setBuffer .KB b).err = s.err := rfl
@[simp] theorem State.setBufferKB_errlog (b : List Byte) : (s.setBuffer .KB b).errlog = s.errlog := rfl
@[simp] theorem State.setBufferKB_cfg (b : List Byte) : (s.setBuffer .KB b).cfg = s.cfg := rfl
@[simp] theorem State.setBufferKB_rng (b : List Byte) : (s.setBuffer .KB b).rng = s.rng := rfl
@[simp] theorem State.setBufferKB_port (b : List Byte) : (s.setBuffer .KB b).port = s.port := rfl
@[simp] theorem State.setBufferKB_cap (b : List Byte) : (s.setBuffer .KB b).cap = s.cap := rfl

/-! `setBuffer .IB`. -/

@[simp] theorem State.setBufferIB_x (b : List Byte) : (s.setBuffer .IB b).x = s.x := rfl
@[simp] theorem State.setBufferIB_k (b : List Byte) : (s.setBuffer .IB b).k = s.k := rfl
@[simp] theorem State.setBufferIB_kvalid (b : List Byte) : (s.setBuffer .IB b).kvalid = s.kvalid := rfl
@[simp] theorem State.setBufferIB_kb (b : List Byte) : (s.setBuffer .IB b).kb = s.kb := rfl
@[simp] theorem State.setBufferIB_ib (b : List Byte) : (s.setBuffer .IB b).ib = b := rfl
@[simp] theorem State.setBufferIB_ob (b : List Byte) : (s.setBuffer .IB b).ob = s.ob := rfl
@[simp] theorem State.setBufferIB_err (b : List Byte) : (s.setBuffer .IB b).err = s.err := rfl
@[simp] theorem State.setBufferIB_errlog (b : List Byte) : (s.setBuffer .IB b).errlog = s.errlog := rfl
@[simp] theorem State.setBufferIB_cfg (b : List Byte) : (s.setBuffer .IB b).cfg = s.cfg := rfl
@[simp] theorem State.setBufferIB_rng (b : List Byte) : (s.setBuffer .IB b).rng = s.rng := rfl
@[simp] theorem State.setBufferIB_port (b : List Byte) : (s.setBuffer .IB b).port = s.port := rfl
@[simp] theorem State.setBufferIB_cap (b : List Byte) : (s.setBuffer .IB b).cap = s.cap := rfl

/-! `setBuffer .OB`. -/

@[simp] theorem State.setBufferOB_x (b : List Byte) : (s.setBuffer .OB b).x = s.x := rfl
@[simp] theorem State.setBufferOB_k (b : List Byte) : (s.setBuffer .OB b).k = s.k := rfl
@[simp] theorem State.setBufferOB_kvalid (b : List Byte) : (s.setBuffer .OB b).kvalid = s.kvalid := rfl
@[simp] theorem State.setBufferOB_kb (b : List Byte) : (s.setBuffer .OB b).kb = s.kb := rfl
@[simp] theorem State.setBufferOB_ib (b : List Byte) : (s.setBuffer .OB b).ib = s.ib := rfl
@[simp] theorem State.setBufferOB_ob (b : List Byte) : (s.setBuffer .OB b).ob = b := rfl
@[simp] theorem State.setBufferOB_err (b : List Byte) : (s.setBuffer .OB b).err = s.err := rfl
@[simp] theorem State.setBufferOB_errlog (b : List Byte) : (s.setBuffer .OB b).errlog = s.errlog := rfl
@[simp] theorem State.setBufferOB_cfg (b : List Byte) : (s.setBuffer .OB b).cfg = s.cfg := rfl
@[simp] theorem State.setBufferOB_rng (b : List Byte) : (s.setBuffer .OB b).rng = s.rng := rfl
@[simp] theorem State.setBufferOB_port (b : List Byte) : (s.setBuffer .OB b).port = s.port := rfl
@[simp] theorem State.setBufferOB_cap (b : List Byte) : (s.setBuffer .OB b).cap = s.cap := rfl

/-! `loadSchedule`: the subkeys and `KVALID`. -/

@[simp] theorem State.loadSchedule_x (keys : Subkeys) : (s.loadSchedule keys).x = s.x := rfl
@[simp] theorem State.loadSchedule_k (keys : Subkeys) : (s.loadSchedule keys).k = keys := rfl
@[simp] theorem State.loadSchedule_kvalid (keys : Subkeys) : (s.loadSchedule keys).kvalid = true := rfl
@[simp] theorem State.loadSchedule_kb (keys : Subkeys) : (s.loadSchedule keys).kb = s.kb := rfl
@[simp] theorem State.loadSchedule_ib (keys : Subkeys) : (s.loadSchedule keys).ib = s.ib := rfl
@[simp] theorem State.loadSchedule_ob (keys : Subkeys) : (s.loadSchedule keys).ob = s.ob := rfl
@[simp] theorem State.loadSchedule_err (keys : Subkeys) : (s.loadSchedule keys).err = s.err := rfl
@[simp] theorem State.loadSchedule_errlog (keys : Subkeys) : (s.loadSchedule keys).errlog = s.errlog := rfl
@[simp] theorem State.loadSchedule_cfg (keys : Subkeys) : (s.loadSchedule keys).cfg = s.cfg := rfl
@[simp] theorem State.loadSchedule_rng (keys : Subkeys) : (s.loadSchedule keys).rng = s.rng := rfl
@[simp] theorem State.loadSchedule_port (keys : Subkeys) : (s.loadSchedule keys).port = s.port := rfl
@[simp] theorem State.loadSchedule_cap (keys : Subkeys) : (s.loadSchedule keys).cap = s.cap := rfl

/-! `dropSchedule`: the subkeys and `KVALID`. -/

@[simp] theorem State.dropSchedule_x : (s.dropSchedule).x = s.x := rfl
@[simp] theorem State.dropSchedule_k : (s.dropSchedule).k = Vector.replicate 52 0#16 := rfl
@[simp] theorem State.dropSchedule_kvalid : (s.dropSchedule).kvalid = false := rfl
@[simp] theorem State.dropSchedule_kb : (s.dropSchedule).kb = s.kb := rfl
@[simp] theorem State.dropSchedule_ib : (s.dropSchedule).ib = s.ib := rfl
@[simp] theorem State.dropSchedule_ob : (s.dropSchedule).ob = s.ob := rfl
@[simp] theorem State.dropSchedule_err : (s.dropSchedule).err = s.err := rfl
@[simp] theorem State.dropSchedule_errlog : (s.dropSchedule).errlog = s.errlog := rfl
@[simp] theorem State.dropSchedule_cfg : (s.dropSchedule).cfg = s.cfg := rfl
@[simp] theorem State.dropSchedule_rng : (s.dropSchedule).rng = s.rng := rfl
@[simp] theorem State.dropSchedule_port : (s.dropSchedule).port = s.port := rfl
@[simp] theorem State.dropSchedule_cap : (s.dropSchedule).cap = s.cap := rfl

/-! `succeed`: `ERR`. -/

@[simp] theorem State.succeed_x : (s.succeed).x = s.x := rfl
@[simp] theorem State.succeed_k : (s.succeed).k = s.k := rfl
@[simp] theorem State.succeed_kvalid : (s.succeed).kvalid = s.kvalid := rfl
@[simp] theorem State.succeed_kb : (s.succeed).kb = s.kb := rfl
@[simp] theorem State.succeed_ib : (s.succeed).ib = s.ib := rfl
@[simp] theorem State.succeed_ob : (s.succeed).ob = s.ob := rfl
@[simp] theorem State.succeed_err : (s.succeed).err = 0#4 := rfl
@[simp] theorem State.succeed_errlog : (s.succeed).errlog = s.errlog := rfl
@[simp] theorem State.succeed_cfg : (s.succeed).cfg = s.cfg := rfl
@[simp] theorem State.succeed_rng : (s.succeed).rng = s.rng := rfl
@[simp] theorem State.succeed_port : (s.succeed).port = s.port := rfl
@[simp] theorem State.succeed_cap : (s.succeed).cap = s.cap := rfl

/-! `raise`: `ERR` and one bit of `ERRLOG`. -/

@[simp] theorem State.raise_x (e : ErrorCode) : (s.raise e).x = s.x := rfl
@[simp] theorem State.raise_k (e : ErrorCode) : (s.raise e).k = s.k := rfl
@[simp] theorem State.raise_kvalid (e : ErrorCode) : (s.raise e).kvalid = s.kvalid := rfl
@[simp] theorem State.raise_kb (e : ErrorCode) : (s.raise e).kb = s.kb := rfl
@[simp] theorem State.raise_ib (e : ErrorCode) : (s.raise e).ib = s.ib := rfl
@[simp] theorem State.raise_ob (e : ErrorCode) : (s.raise e).ob = s.ob := rfl
@[simp] theorem State.raise_err (e : ErrorCode) : (s.raise e).err = e.code := rfl
@[simp] theorem State.raise_errlog (e : ErrorCode) : (s.raise e).errlog = s.errlog ||| errlogBit e.code := rfl
@[simp] theorem State.raise_cfg (e : ErrorCode) : (s.raise e).cfg = s.cfg := rfl
@[simp] theorem State.raise_rng (e : ErrorCode) : (s.raise e).rng = s.rng := rfl
@[simp] theorem State.raise_port (e : ErrorCode) : (s.raise e).port = s.port := rfl
@[simp] theorem State.raise_cap (e : ErrorCode) : (s.raise e).cap = s.cap := rfl

/-! `pushCommand`: the host's inputs. -/

@[simp] theorem State.pushCommand_x (w : CommandWord) : (s.pushCommand w).x = s.x := rfl
@[simp] theorem State.pushCommand_k (w : CommandWord) : (s.pushCommand w).k = s.k := rfl
@[simp] theorem State.pushCommand_kvalid (w : CommandWord) : (s.pushCommand w).kvalid = s.kvalid := rfl
@[simp] theorem State.pushCommand_kb (w : CommandWord) : (s.pushCommand w).kb = s.kb := rfl
@[simp] theorem State.pushCommand_ib (w : CommandWord) : (s.pushCommand w).ib = s.ib := rfl
@[simp] theorem State.pushCommand_ob (w : CommandWord) : (s.pushCommand w).ob = s.ob := rfl
@[simp] theorem State.pushCommand_err (w : CommandWord) : (s.pushCommand w).err = s.err := rfl
@[simp] theorem State.pushCommand_errlog (w : CommandWord) : (s.pushCommand w).errlog = s.errlog := rfl
@[simp] theorem State.pushCommand_cfg (w : CommandWord) : (s.pushCommand w).cfg = s.cfg := rfl
@[simp] theorem State.pushCommand_rng (w : CommandWord) : (s.pushCommand w).rng = s.rng := rfl
@[simp] theorem State.pushCommand_port (w : CommandWord) : (s.pushCommand w).port = .command w :: s.port := rfl
@[simp] theorem State.pushCommand_cap (w : CommandWord) : (s.pushCommand w).cap = s.cap := rfl

/-! Reset (R190). -/

@[simp] theorem State.resetEvent_x : s.resetEvent.x = ⟨0, 0, 0, 0⟩ := rfl
@[simp] theorem State.resetEvent_k : s.resetEvent.k = Vector.replicate 52 0 := rfl
@[simp] theorem State.resetEvent_kvalid : s.resetEvent.kvalid = false := rfl
@[simp] theorem State.resetEvent_kb : s.resetEvent.kb = [] := rfl
@[simp] theorem State.resetEvent_ib : s.resetEvent.ib = [] := rfl
@[simp] theorem State.resetEvent_ob : s.resetEvent.ob = [] := rfl
@[simp] theorem State.resetEvent_err : s.resetEvent.err = 0 := rfl
@[simp] theorem State.resetEvent_errlog : s.resetEvent.errlog = 0 := rfl
@[simp] theorem State.resetEvent_cfg : s.resetEvent.cfg = s.cfg := rfl
@[simp] theorem State.resetEvent_rng : s.resetEvent.rng = s.rng := rfl
@[simp] theorem State.resetEvent_port : s.resetEvent.port = s.port := rfl
@[simp] theorem State.resetWith_x (c : Config) : (State.resetWith c).x = ⟨0, 0, 0, 0⟩ := rfl
@[simp] theorem State.resetWith_k (c : Config) : (State.resetWith c).k = Vector.replicate 52 0 := rfl
@[simp] theorem State.resetWith_kvalid (c : Config) : (State.resetWith c).kvalid = false := rfl
@[simp] theorem State.resetWith_kb (c : Config) : (State.resetWith c).kb = [] := rfl
@[simp] theorem State.resetWith_ib (c : Config) : (State.resetWith c).ib = [] := rfl
@[simp] theorem State.resetWith_ob (c : Config) : (State.resetWith c).ob = [] := rfl
@[simp] theorem State.resetWith_err (c : Config) : (State.resetWith c).err = 0 := rfl
@[simp] theorem State.resetWith_errlog (c : Config) : (State.resetWith c).errlog = 0 := rfl
@[simp] theorem State.resetWith_cfg (c : Config) : (State.resetWith c).cfg = c := rfl
@[simp] theorem State.resetWith_rng (c : Config) : (State.resetWith c).rng = ⟨[], 0⟩ := rfl
@[simp] theorem State.resetWith_port (c : Config) : (State.resetWith c).port = [] := rfl

end Sys2Proof.Machine
end

