-- ==== Sys2Proof/Laws/Ops.lean ====
section
/-! SUPPORT. One lemma per shared operation: finishing a command, raising an error, drawing filler, the loop over blocks, and the
well-formedness of the buffers. -/

namespace Sys2Proof.Machine

/-! ## Finishing -/

@[simp] theorem finish_ok (s t : State) : s.finish (.ok t) = .next t.succeed := rfl
@[simp] theorem finish_error (s : State) (e : ErrorCode) : s.finish (.error e) = .next (s.raise e) := rfl

/-- Everything a finished command can be: its steps' state with `ERR = 0`, or the starting state with an error raised. -/
theorem finish_cases {s t : State} {r : Steps} (h : s.finish r = .next t) :
    (∃ u, r = .ok u ∧ t = u.succeed) ∨ (∃ e, r = .error e ∧ t = s.raise e) := by
  cases r with
  | ok u => exact .inl ⟨u, rfl, by simpa using h.symm⟩
  | error e => exact .inr ⟨e, rfl, by simpa using h.symm⟩

theorem finish_next (s : State) (r : Steps) : ∃ t, s.finish r = .next t := by
  cases r <;> exact ⟨_, rfl⟩

/-- An error's number is 1 to 9 (R170). -/
theorem code_range (e : ErrorCode) : 1 ≤ e.code.toNat ∧ e.code.toNat ≤ 9 := by cases e <;> decide

theorem code_ne_zero (e : ErrorCode) : e.code ≠ 0#4 := by cases e <;> decide

/-- The bit a code sets in `ERRLOG` is that bit and no other (R23). -/
theorem getLsbD_errlogBit (c : BitVec 4) (i : Nat) : (errlogBit c).getLsbD i = decide (i = c.toNat) := by
  have hc := c.isLt
  by_cases h : i = c.toNat
  · subst h; simp [errlogBit]; omega
  · simp only [errlogBit, BitVec.getLsbD_shiftLeft, h, decide_false]
    by_cases h16 : i < c.toNat
    · simp [h16]
    · have : i - c.toNat ≠ 0 := by omega
      simp [this]

/-! ## Drawing filler (R186) -/

theorem drawByte_state (s : State) :
    s.drawByte.2 = { s with rng := ⟨s.rng.answers.tail, s.rng.taken + 1⟩ } := by
  unfold State.drawByte; split <;> simp_all

/-- Drawing changes the random source only. -/
theorem draw_state (s : State) (n : Nat) :
    (s.draw n).2 = { s with rng := ⟨s.rng.answers.drop n, s.rng.taken + n⟩ } := by
  induction n generalizing s with
  | zero => simp [State.draw]
  | succ n ih =>
    simp only [State.draw, ih, drawByte_state]
    simp [List.drop_tail, Nat.add_comm 1 n, Nat.add_assoc]

theorem draw_length (s : State) (n : Nat) : (s.draw n).1.length = n := by
  induction n generalizing s with
  | zero => rfl
  | succ n ih => simp [State.draw, ih]

/-- The listed answers come first, in order. -/
theorem draw_prefix (s : State) (n : Nat) :
    (s.draw n).1.take s.rng.answers.length = s.rng.answers.take n := by
  induction n generalizing s with
  | zero => simp [State.draw]
  | succ n ih =>
    have h := ih s.drawByte.2
    rw [drawByte_state] at h
    cases ha : s.rng.answers with
    | nil => simp
    | cons b rest =>
      rw [ha] at h
      simp only [List.tail_cons] at h
      simp [State.draw, State.drawByte, ha]
      simpa [State.drawByte, ha] using h

/-- What is drawn depends on the random source only. -/
theorem draw_congr {s t : State} (h : s.rng = t.rng) (n : Nat) : (s.draw n).1 = (t.draw n).1 := by
  induction n generalizing s t with
  | zero => rfl
  | succ n ih =>
    simp only [State.draw]
    rw [ih (show s.drawByte.2.rng = t.drawByte.2.rng by simp [drawByte_state, h])]
    congr 1
    simp only [State.drawByte, h]
    cases t.rng.answers <;> rfl

@[simp] theorem draw_zero (s : State) : s.draw 0 = ([], s) := rfl

/-! ## The loop over blocks -/

@[simp] theorem forBlocks_zero (body : Nat → State → Steps) (s : State) : forBlocks body 0 s = .ok s := rfl
theorem forBlocks_succ (body : Nat → State → Steps) (n : Nat) (s : State) :
    forBlocks body (n + 1) s = (forBlocks body n s).bind (body n) := rfl

/-- A property that holds at the start and that every turn keeps, without an error, holds at the end of the loop. -/
theorem forBlocks_invariant {body : Nat → State → Steps} (P : Nat → State → Prop) {count : Nat} {s : State} (h0 : P 0 s)
    (hstep : ∀ n u, n < count → P n u → ∃ v, body n u = .ok v ∧ P (n + 1) v) :
    ∃ t, forBlocks body count s = .ok t ∧ P count t := by
  induction count with
  | zero => exact ⟨s, rfl, h0⟩
  | succ n ih =>
    obtain ⟨u, hu, hPu⟩ := ih fun m v hm => hstep m v (by omega)
    obtain ⟨v, hv, hPv⟩ := hstep n u (by omega) hPu
    exact ⟨v, by rw [forBlocks_succ, hu]; exact hv, hPv⟩

/-- What every turn leaves unchanged, the loop leaves unchanged. -/
theorem forBlocks_keeps {α : Type} (f : State → α) {body : Nat → State → Steps}
    (hbody : ∀ n u v, body n u = .ok v → f v = f u) {count : Nat} {s t : State} (h : forBlocks body count s = .ok t) :
    f t = f s := by
  induction count generalizing t with
  | zero => cases h; rfl
  | succ n ih =>
    rw [forBlocks_succ] at h
    cases hu : forBlocks body n s with
    | error e => rw [hu] at h; cases h
    | ok u => rw [hu] at h; rw [hbody n u t h, ih hu]

/-! ## The buffers -/

/-- Equal reads of every byte make equal buffers (R18). -/
theorem readByte_eq (s : State) (sp : Space) (a : Nat) : s.readByte sp a = (s.buffer sp)[a]? := rfl

theorem buffer_setBuffer (s : State) (sp sq : Space) (b : List Byte) :
    (s.setBuffer sp b).buffer sq = if sq = sp then b else s.buffer sq := by
  cases sp <;> cases sq <;> rfl

theorem capacity_setBuffer (s : State) (sp sq : Space) (b : List Byte) :
    (s.setBuffer sp b).capacity sq = s.capacity sq := by
  cases sp <;> cases sq <;> rfl

/-- The bytes a command appends are read back, the older bytes as before (read after write). -/
theorem readByte_memAppend (s : State) (sp sq : Space) (b : List Byte) (a : Nat) :
    (s.memAppend sp b).readByte sq a =
      if sq = sp ∧ (s.buffer sp).length ≤ a then b[a - (s.buffer sp).length]? else s.readByte sq a := by
  simp only [State.readByte, State.memAppend, buffer_setBuffer]
  by_cases h : sq = sp
  · subst h
    by_cases ha : a < (s.buffer sq).length
    · simp [List.getElem?_append, ha]
    · simp [List.getElem?_append, ha, Nat.not_lt.mp ha]
  · simp [h]

theorem readByte_memTrunc (s : State) (sp sq : Space) (n a : Nat) :
    (s.memTrunc sp n).readByte sq a = if sq = sp ∧ n ≤ a then none else s.readByte sq a := by
  simp only [State.readByte, State.memTrunc, buffer_setBuffer]
  by_cases h : sq = sp
  · subst h
    by_cases ha : a < n
    · simp [ha, Nat.not_le.mpr ha]
    · simp [ha, Nat.not_lt.mp ha]
  · simp [h]

theorem wf_iff (s : State) : Memory.wf s = true ↔ ∀ sp, (s.buffer sp).length ≤ s.capacity sp := by
  constructor
  · intro h sp
    simp only [Memory.wf, Bool.and_eq_true, decide_eq_true_eq] at h
    cases sp <;> simp_all
  · intro h
    have h1 := h .KB; have h2 := h .IB; have h3 := h .OB
    simp_all [Memory.wf]

theorem reset_wf (c : Config) : Memory.wf (State.resetWith c) = true := by
  simp [Memory.wf]

theorem memAppend_wf {s : State} {sp : Space} {b : List Byte} (hs : Memory.wf s = true)
    (h : (s.buffer sp).length + b.length ≤ s.capacity sp) : Memory.wf (s.memAppend sp b) = true := by
  rw [wf_iff] at *
  intro sq
  rw [State.memAppend, buffer_setBuffer, capacity_setBuffer]
  by_cases hq : sq = sp
  · subst hq; simpa using h
  · simpa [hq] using hs sq

theorem memTrunc_wf {s : State} {sp : Space} {n : Nat} (hs : Memory.wf s = true) :
    Memory.wf (s.memTrunc sp n) = true := by
  rw [wf_iff] at *
  intro sq
  rw [State.memTrunc, buffer_setBuffer, capacity_setBuffer]
  by_cases hq : sq = sp
  · subst hq
    have := hs sq
    simp only [ite_true, List.length_take]
    omega
  · simpa [hq] using hs sq

/-- One address space as cells: the addresses rise strictly from 0, and each cell is what a read of its address gives. -/
theorem cells_spec (s : State) (sp : Space) :
    (s.cells sp).map Prod.fst = List.range (s.buffer sp).length ∧
    ∀ c ∈ s.cells sp, s.readByte sp c.1 = some c.2 := by
  constructor
  · simp only [State.cells, List.map_map]
    apply List.ext_getElem <;> simp
  · intro c hc
    simp only [State.cells, List.mem_map] at hc
    obtain ⟨⟨b, i⟩, hb, rfl⟩ := hc
    have := List.mem_zipIdx hb
    simp only [State.readByte]
    simp_all

theorem cells_rising (s : State) (sp : Space) : ((s.cells sp).map Prod.fst).Pairwise (· < ·) := by
  rw [(cells_spec s sp).1]; exact List.pairwise_lt_range

end Sys2Proof.Machine
end

