-- ==== Sys2Proof/Laws/PerInstr.lean ====
section
/-! SUPPORT. Per-instruction laws. Family `MatchesRow`: the word of a well-formed command passes its own row's test of R54,
`w AND mask = match`, with the mask and the match as the table prints them. -/

namespace Sys2Proof.Laws.MatchesRow

def Statement (i : Instr) : Prop := i.wellFormed = true → encode i &&& rowMask i.mnemonic = rowMatch i.mnemonic

theorem clr (mask : BitVec 16) : Statement (.clr mask) := by
  intro h
  simp only [Instr.wellFormed, clrMaskLegal, beq_iff_eq] at h
  apply BitVec.eq_of_getLsbD_eq
  intro i hi
  have hb := fun j => congrArg (fun v => v.getLsbD j) h
  simp only [BitVec.getLsbD_extractLsb'] at hb
  simp [encode, encodeN, place, rowMask, rowMatch, Instr.mnemonic]
  interval_cases i <;> simp_all
  all_goals first
    | exact hb 0 (by omega) | exact hb 1 (by omega) | exact hb 2 (by omega) | exact hb 3 (by omega)
    | exact hb 4 (by omega) | exact hb 5 (by omega) | exact hb 6 (by omega) | exact hb 7 (by omega)
    | exact hb 8 (by omega) | exact hb 9 (by omega) | exact hb 10 (by omega) | exact hb 11 (by omega)

theorem ldi (rd : Reg) (imm : BitVec 16) : Statement (.ldi rd imm) := fun _ => mask_encodeI _ _ _
theorem add (rd rs1 rs2 : Reg) : Statement (.add rd rs1 rs2) := fun _ => mask_encodeR _ _ _ _
theorem mul (rd rs1 rs2 : Reg) : Statement (.mul rd rs1 rs2) := fun _ => mask_encodeR _ _ _ _
theorem ainv (rd rs1 : Reg) : Statement (.ainv rd rs1) := fun _ => mask_encodeU _ _ _
theorem minv (rd rs1 : Reg) : Statement (.minv rd rs1) := fun _ => mask_encodeU _ _ _
theorem kput (imm : BitVec 8) : Statement (.kput imm) := fun _ => mask_encodeB _ _
theorem kexp : Statement .kexp := fun _ => mask_encodeZ _
theorem ldk (rd : Reg) (index : BitVec 16) : Statement (.ldk rd index) := fun _ => mask_encodeI _ _ _
theorem encb : Statement .encb := fun _ => mask_encodeZ _
theorem decb : Statement .decb := fun _ => mask_encodeZ _
theorem iput (imm : BitVec 8) : Statement (.iput imm) := fun _ => mask_encodeB _ _
theorem pad : Statement .pad := fun _ => mask_encodeZ _
theorem ldblk (n : BitVec 16) : Statement (.ldblk n) := fun _ => mask_encodeN _ _
theorem sthex : Statement .sthex := fun _ => mask_encodeZ _
theorem ldhex (n : BitVec 16) : Statement (.ldhex n) := fun _ => mask_encodeN _ _
theorem stblk : Statement .stblk := fun _ => mask_encodeZ _
theorem unpad : Statement .unpad := fun _ => mask_encodeZ _
theorem encmsg : Statement .encmsg := fun _ => mask_encodeZ _
theorem decmsg : Statement .decmsg := fun _ => mask_encodeZ _

end Sys2Proof.Laws.MatchesRow
end

