-- ==== Sys2Proof/Laws/Steps.lean ====
section
/-! SUPPORT. What each command's steps give, once each: the state they leave or the error, under conditions on the state and
the operands; and every command as its steps finished. -/

namespace Sys2Proof.Machine

/-! ## Every command is its steps, finished -/

/-- The steps of a command. -/
def commandSteps : Instr → State → Steps
  | .clr mask => clrSteps mask
  | .ldi rd imm => fun s => .ok (s.setX rd imm)
  | .add rd rs1 rs2 => fun s => .ok (s.setX rd (add (s.getX rs1) (s.getX rs2)))
  | .mul rd rs1 rs2 => fun s => .ok (s.setX rd (multiply (s.getX rs1) (s.getX rs2)))
  | .ainv rd rs1 => fun s => .ok (s.setX rd (ainv (s.getX rs1)))
  | .minv rd rs1 => fun s => .ok (s.setX rd (minv (s.getX rs1)))
  | .kput imm => kputSteps imm
  | .kexp => kexpSteps
  | .ldk rd index => ldkSteps rd index.toNat
  | .encb => encbSteps
  | .decb => decbSteps
  | .iput imm => iputSteps imm
  | .pad => padSteps
  | .ldblk n => ldblkSteps n.toNat
  | .sthex => sthexSteps
  | .ldhex n => ldhexSteps n.toNat
  | .stblk => stblkSteps
  | .unpad => unpadSteps
  | .encmsg => encmsgSteps
  | .decmsg => decmsgSteps

theorem exec_eq_finish (i : Instr) (s : State) : exec i s = s.finish (commandSteps i s) := by cases i <;> rfl

/-- Everything a command can leave: its steps' state with `ERR = 0`, or the starting state with an error raised. -/
theorem exec_cases {i : Instr} {s t : State} (h : exec i s = .next t) :
    (∃ u, commandSteps i s = .ok u ∧ t = u.succeed) ∨ (∃ e, commandSteps i s = .error e ∧ t = s.raise e) :=
  finish_cases (exec_eq_finish i s ▸ h)

theorem exec_next (i : Instr) (s : State) : ∃ t, exec i s = .next t := exec_eq_finish i s ▸ finish_next s _

/-! ## Key scheduler -/

variable {s : State}

theorem kputSteps_full (imm : Byte) (h : s.kb.length = 16) : kputSteps imm s = .error .keyOverflow := if_pos h

theorem kputSteps_room (imm : Byte) (h : s.kb.length ≠ 16) :
    kputSteps imm s = .ok { s with kb := s.kb ++ [imm], k := Vector.replicate 52 0#16, kvalid := false } := if_neg h

theorem kexpSteps_empty (h : s.kb.length = 0) : kexpSteps s = .error .missingKey := if_pos h

theorem kexpSteps_key (h : s.kb.length ≠ 0) : kexpSteps s = .ok { s with k := keySchedule s.kb, kvalid := true } := if_neg h

theorem ldkSteps_invalid (rd : Reg) (i : Nat) (h : s.kvalid = false) : ldkSteps rd i s = .error .noSchedule := if_pos h

theorem ldkSteps_outside (rd : Reg) {i : Nat} (h : s.kvalid = true) (hi : 51 < i) : ldkSteps rd i s = .error .indexRange := by
  have : s.subkey i = none := by simp [State.subkey]; omega
  simp [ldkSteps, h, this]

theorem ldkSteps_inside (rd : Reg) {i : Nat} (h : s.kvalid = true) (hi : i < 52) : ldkSteps rd i s = .ok (s.setX rd s.k[i]) := by
  have : s.subkey i = some s.k[i] := by simp [State.subkey, hi]
  simp [ldkSteps, h, this]

/-! ## Round engine -/

theorem encbSteps_invalid (h : s.kvalid = false) : encbSteps s = .error .noSchedule := if_pos h
theorem encbSteps_valid (h : s.kvalid = true) : encbSteps s = .ok { s with x := encBlock s.k s.x } := if_neg (by simp [h])
theorem decbSteps_invalid (h : s.kvalid = false) : decbSteps s = .error .noSchedule := if_pos h
theorem decbSteps_valid (h : s.kvalid = true) : decbSteps s = .ok { s with x := decBlock s.k s.x } := if_neg (by simp [h])

/-! ## Codec -/

theorem iputSteps_full (imm : Byte) (h : s.ib.length = s.cap) : iputSteps imm s = .error .bufferOverflow := if_pos h
theorem iputSteps_room (imm : Byte) (h : s.ib.length ≠ s.cap) : iputSteps imm s = .ok { s with ib := s.ib ++ [imm] } := if_neg h

/-- PAD's steps, both cases in one: the input buffer padded with the bytes drawn, the random source as the draw left it. -/
theorem padSteps_eq (s : State) :
    padSteps s = .ok { s with ib := padMsg s.ib (s.draw (fillerCount s.ib.length)).1,
                              rng := (s.draw (fillerCount s.ib.length)).2.rng } := by
  unfold padSteps padMsg fillerCount
  split
  · rfl
  · simp only [draw_state, List.append_assoc]; rfl

theorem ldblkSteps_inside {n : Nat} (h : 8 * n + 8 ≤ s.ib.length) :
    ldblkSteps n s = .ok { s with x := splitBlock s.ib n h } := dif_pos h

theorem ldblkSteps_outside {n : Nat} (h : s.ib.length < 8 * n + 8) : ldblkSteps n s = .error .indexRange :=
  dif_neg (by simp only [blockAddress]; omega)

theorem sthexSteps_full (h : s.cap < s.ob.length + 16) : sthexSteps s = .error .bufferOverflow := if_pos h
theorem sthexSteps_room (h : s.ob.length + 16 ≤ s.cap) : sthexSteps s = .ok { s with ob := s.ob ++ toHex s.x } :=
  if_neg (by omega)
theorem stblkSteps_full (h : s.cap < s.ob.length + 8) : stblkSteps s = .error .bufferOverflow := if_pos h
theorem stblkSteps_room (h : s.ob.length + 8 ≤ s.cap) : stblkSteps s = .ok { s with ob := s.ob ++ joinBlock s.x } :=
  if_neg (by omega)

theorem ldhexSteps_outside {n : Nat} (h : s.ib.length < 16 * n + 16) : ldhexSteps n s = .error .indexRange := if_pos h

theorem ldhexSteps_bad {n : Nat} (h : 16 * n + 16 ≤ s.ib.length) (hp : parseHex (s.memRead .IB (16 * n) 16) = none) :
    ldhexSteps n s = .error .invalidCiphertext := by
  rw [ldhexSteps, if_neg (by simp only [groupAddress]; omega)]; simp only [groupAddress, hp]

theorem ldhexSteps_good {n : Nat} (h : 16 * n + 16 ≤ s.ib.length) {p : Block}
    (hp : parseHex (s.memRead .IB (16 * n) 16) = some p) : ldhexSteps n s = .ok { s with x := p } := by
  rw [ldhexSteps, if_neg (by simp only [groupAddress]; omega)]; simp only [groupAddress, hp]; rfl

theorem unpad_prefix (buf : List Byte) : unpad buf <+: buf := List.takeWhile_prefix _

theorem unpadSteps_eq (s : State) : unpadSteps s = .ok { s with ob := unpad s.ob } := by
  have h : s.ob.take (unpad s.ob).length = unpad s.ob := (List.prefix_iff_eq_take.mp (unpad_prefix _)).symm
  show Except.ok { s with ob := s.ob.take (unpad s.ob).length } = _
  rw [h]

/-! ## Message commands -/

theorem clrSteps_eq (mask : BitVec 16) (s : State) : clrSteps mask s = .ok { s with
    kb := if mask.getLsbD 0 then [] else s.kb
    k := if mask.getLsbD 0 then Vector.replicate 52 0#16 else s.k
    kvalid := if mask.getLsbD 0 then false else s.kvalid
    ib := if mask.getLsbD 1 then [] else s.ib
    ob := if mask.getLsbD 2 then [] else s.ob
    x := if mask.getLsbD 3 then ⟨0, 0, 0, 0⟩ else s.x } := by
  unfold clrSteps maskBit
  cases mask.getLsbD 0 <;> cases mask.getLsbD 1 <;> cases mask.getLsbD 2 <;> cases mask.getLsbD 3 <;> rfl

theorem consume_eq (s : State) :
    s.consume = { s with kb := [], k := Vector.replicate 52 0#16, kvalid := false, ib := [] } := rfl

/-- One turn of ENCMSG's loop, on a state in which it goes through. -/
theorem encBlockSteps_ok {n : Nat} (h : 8 * n + 8 ≤ s.ib.length) (hk : s.kvalid = true) (ho : s.ob.length + 16 ≤ s.cap) :
    encBlockSteps n s = .ok { s with
      x := encBlock s.k (splitBlock s.ib n h), ob := s.ob ++ toHex (encBlock s.k (splitBlock s.ib n h)) } := by
  show (ldblkSteps n s).bind (fun s => (encbSteps s).bind sthexSteps) = _
  rw [ldblkSteps_inside h]
  show (encbSteps { s with x := splitBlock s.ib n h }).bind sthexSteps = _
  rw [encbSteps_valid (by exact hk)]
  exact sthexSteps_room (by exact ho)

/-- One turn of DECMSG's loop, on a state in which it goes through. -/
theorem decBlockSteps_ok {n : Nat} (h : 16 * n + 16 ≤ s.ib.length) {p : Block}
    (hp : parseHex (s.memRead .IB (16 * n) 16) = some p) (hk : s.kvalid = true) (ho : s.ob.length + 8 ≤ s.cap) :
    decBlockSteps n s = .ok { s with x := decBlock s.k p, ob := s.ob ++ joinBlock (decBlock s.k p) } := by
  show (ldhexSteps n s).bind (fun s => (decbSteps s).bind stblkSteps) = _
  rw [ldhexSteps_good h hp]
  show (decbSteps { s with x := p }).bind stblkSteps = _
  rw [decbSteps_valid (by exact hk)]
  exact stblkSteps_room (by exact ho)

end Sys2Proof.Machine
end

