-- ==== Sys2Proof/Tests/Slice0.lean ====
section
/-! SUPPORT. The model's own tests: words written out from the encoding tables, one-step tests with the values of
spec/95_test_vectors.md, the well-formedness smoke test, and for each obligation with hypotheses a state that meets them. -/

namespace Sys2Proof.Tests
open Sys2Proof Sys2Proof.Machine

/-! ## Helpers -/

/-- The next state, if the outcome is one. -/
def after : Host.Outcome State Fault Refusal → Option State
  | .next t => some t
  | .fault _ => none
  | .refused _ => none

/-- A field of the state a command leaves. -/
def leaves {α : Type} (i : Instr) (s : State) (f : State → α) : Option α := (after (exec i s)).map f

/-- The state after reset of a machine whose `CAP` is 16, or 64. -/
def cap16 : State := State.resetWith ⟨0⟩
def cap64 : State := State.resetWith ⟨3⟩

/-- "KEY", "TEST". -/
def key : List Byte := [0x4B#8, 0x45#8, 0x59#8]
def message : List Byte := [0x54#8, 0x45#8, 0x53#8, 0x54#8]

/-- A machine with the key "KEY" expanded. -/
def ready : State := { cap64 with kb := key, k := keySchedule key, kvalid := true }

/-- A machine with the key of section 2.3 expanded. -/
def knownKey : List Byte :=
  [0x00#8, 0x01#8, 0x00#8, 0x02#8, 0x00#8, 0x03#8, 0x00#8, 0x04#8] ++
  [0x00#8, 0x05#8, 0x00#8, 0x06#8, 0x00#8, 0x07#8, 0x00#8, 0x08#8]
def known : State := { cap64 with kb := knownKey, k := keySchedule knownKey, kvalid := true }

/-- The bytes of ASCII text. -/
def ascii (t : List Char) : List Byte := t.map fun c => BitVec.ofNat 8 c.toNat

/-- "837AD6F846213E77", the ciphertext of section 5.1. -/
def cipher : List Byte := ascii ['8', '3', '7', 'A', 'D', '6', 'F', '8', '4', '6', '2', '1', '3', 'E', '7', '7']

theorem after_next {o : Host.Outcome State Fault Refusal} {t : State} (h : after o = some t) : o = .next t := by
  cases o <;> simp_all [after]

/-- A command that a test shows to leave a state with a property does leave one. -/
theorem leaves_next {i : Instr} {s : State} (p : State → Bool) (h : leaves i s p = some true) :
    ∃ t, exec i s = .next t ∧ p t = true := by
  unfold leaves at h
  cases hx : after (exec i s) with
  | none => simp [hx] at h
  | some t => exact ⟨t, after_next hx, by simpa [hx] using h⟩

/-! ## Well-formedness -/

/-- R55 (c): a mask with bit 4 set, and one with bit 15 set, are refused. -/
theorem test_wellFormed_clr_mask_bit4 : (Instr.clr 0x0010).wellFormed = false := by decide
theorem test_wellFormed_clr_mask_bit15 : (Instr.clr 0x8000).wellFormed = false := by decide
theorem test_wellFormed_clr_15 : (Instr.clr 0x000F).wellFormed = true := by decide

/-! ## Decoding: op | rd | rs1 | rs2 | ..., written out from R51, R52, R54 -/

theorem test_decode_clr : decode 0b00000001_00000000_0000000000001111#32 = .ok (.clr 15) := by decide
theorem test_decode_ldi : decode 0b00010000_11_000000_1011111011101111#32 = .ok (.ldi .D 0xBEEF) := by decide
theorem test_decode_add : decode 0b00010001_11_10_01_000000000000000000#32 = .ok (.add .D .C .B) := by decide
theorem test_decode_mul : decode 0b00010010_00_01_10_000000000000000000#32 = .ok (.mul .A .B .C) := by decide
theorem test_decode_ainv : decode 0b00010011_01_11_00000000000000000000#32 = .ok (.ainv .B .D) := by decide
theorem test_decode_minv : decode 0b00010100_10_00_00000000000000000000#32 = .ok (.minv .C .A) := by decide
theorem test_decode_kput : decode 0b00100000_0000000000000000_11111111#32 = .ok (.kput 0xFF) := by decide
theorem test_decode_kexp : decode 0b00100001_000000000000000000000000#32 = .ok .kexp := by decide
theorem test_decode_ldk : decode 0b00100010_11_000000_0000000000110011#32 = .ok (.ldk .D 51) := by decide
theorem test_decode_encb : decode 0b00110000_000000000000000000000000#32 = .ok .encb := by decide
theorem test_decode_decb : decode 0b00110001_000000000000000000000000#32 = .ok .decb := by decide
theorem test_decode_iput : decode 0b01000000_0000000000000000_00000001#32 = .ok (.iput 1) := by decide
theorem test_decode_pad : decode 0b01000001_000000000000000000000000#32 = .ok .pad := by decide
theorem test_decode_ldblk : decode 0b01000010_00000000_1111111111111111#32 = .ok (.ldblk 65535) := by decide
theorem test_decode_sthex : decode 0b01000011_000000000000000000000000#32 = .ok .sthex := by decide
theorem test_decode_ldhex : decode 0b01000100_00000000_0000000000000011#32 = .ok (.ldhex 3) := by decide
theorem test_decode_stblk : decode 0b01000101_000000000000000000000000#32 = .ok .stblk := by decide
theorem test_decode_unpad : decode 0b01000110_000000000000000000000000#32 = .ok .unpad := by decide
theorem test_decode_encmsg : decode 0b01010000_000000000000000000000000#32 = .ok .encmsg := by decide
theorem test_decode_decmsg : decode 0b01010001_000000000000000000000000#32 = .ok .decmsg := by decide

/-- The table's own form of a word, for a row of each operand shape. -/
theorem test_decodeTableWord : decodeTableWord 32 0x22C00033 = some (.ldk .D 51) ∧ decodeTableWord 32 0x7F000000 = none := by
  decide

/-! Illegal words, section 6, each by the name of its reason. -/

theorem test_illegal_opcodes : ([0x00000000#32, 0xFFFFFFFF#32, 0x02000000#32, 0x15000000#32, 0x23000000#32,
    0x32000000#32, 0x47000000#32, 0x52000000#32, 0x7F000000#32].all
    fun w => decide (decode w = .error .unassignedOpcode)) = true := by decide
theorem test_illegal_reserved : ([0x21000001#32, 0x30800000#32, 0x11000001#32, 0x11020000#32, 0x13040000#32,
    0x10100000#32, 0x22300000#32, 0x01400000#32, 0x20000100#32, 0x40010000#32, 0x42010000#32].all
    fun w => decide (decode w = .error .reservedBit)) = true := by decide
theorem test_illegal_mask : decode 0x01000010#32 = .error .clrMask := by decide

/-! ## Arithmetic: section 2.1 -/

/-- A machine with four register values. -/
def regs (a b c d : Word) : State := { cap16 with x := ⟨a, b, c, d⟩ }

theorem test_ldi : leaves (.ldi .D 0xBEEF) (regs 1 2 3 4) State.x = some ⟨1, 2, 3, 0xBEEF⟩ := by decide
theorem test_add_wraps : leaves (.add .C .A .B) (regs 0xFFFF 2 9 4) State.x = some ⟨0xFFFF, 2, 1, 4⟩ := by decide
theorem test_add_source_is_destination :
    leaves (.add .A .A .A) (regs 0xEDCC 0xE51E 0x68AC 0xFA3B) State.x = some ⟨0xDB98, 0xE51E, 0x68AC, 0xFA3B⟩ := by decide
theorem test_mul_zero : leaves (.mul .C .A .B) (regs 0 2 7 8) State.x = some ⟨0, 2, 0xFFFF, 8⟩ := by decide
theorem test_mul_folds : leaves (.mul .D .A .B) (regs 0x8000 2 7 8) State.x = some ⟨0x8000, 2, 7, 0⟩ := by decide
theorem test_ainv : leaves (.ainv .A .A) (regs 0x1234 2 3 4) State.x = some ⟨0xEDCC, 2, 3, 4⟩ := by decide
theorem test_ainv_zero : leaves (.ainv .B .A) (regs 0 2 3 4) State.x = some ⟨0, 0, 3, 4⟩ := by decide
theorem test_minv : leaves (.minv .B .B) (regs 1 0x5678 3 4) State.x = some ⟨1, 0x2CAD, 3, 4⟩ := by decide +kernel
theorem test_minv_zero : leaves (.minv .D .A) (regs 0 2 3 4) State.x = some ⟨0, 2, 3, 0⟩ := by decide

/-! ## Key scheduler: sections 2.2 to 2.5 -/

theorem test_kput_drops_schedule : leaves (.kput 1) ready (fun t => (t.kb, t.kvalid, t.k, t.err)) =
    some (key ++ [1#8], false, Vector.replicate 52 0#16, 0#4) := by decide +kernel
theorem test_kput_full : leaves (.kput 0x10) known (fun t => (t.kb, t.err, t.errlog)) =
    some (knownKey, 6#4, 0x0040#16) := by decide +kernel
theorem test_kexp : leaves .kexp { cap64 with kb := key } (fun t => (t.kvalid, t.subkey 15, t.subkey 20, t.subkey 51)) =
    some (true, some 0x8AB2#16, some 0x0405#16, some 0x4040#16) := by decide +kernel
theorem test_kexp_empty : leaves .kexp cap64 (fun t => (t.kvalid, t.err, t.errlog)) = some (false, 1#4, 2#16) := by decide
theorem test_ldk : leaves (.ldk .B 47) known State.x = some ⟨0, 0xE001, 0, 0⟩ := by decide +kernel
theorem test_ldk_outside : leaves (.ldk .D 52) ready (fun t => (t.x, t.err, t.errlog)) =
    some (⟨0, 0, 0, 0⟩, 8#4, 0x0100#16) := by decide +kernel

/-! ## Round engine: sections 3.1, 3.2, 3.5 -/

theorem test_encb_known_answer : leaves .encb { known with x := ⟨0, 1, 2, 3⟩ } State.x =
    some ⟨0x11FB, 0xED2B, 0x0198, 0x6DE5⟩ := by decide +kernel
theorem test_encb_all_zero : leaves .encb { cap16 with kvalid := true } State.x = some ⟨1, 1, 0, 0⟩ := by decide +kernel
theorem test_decb_known_answer : leaves .decb { known with x := ⟨0x11FB, 0xED2B, 0x0198, 0x6DE5⟩ } State.x =
    some ⟨0, 1, 2, 3⟩ := by decide +kernel
theorem test_decb_no_schedule : leaves .decb cap16 (fun t => (t.x, t.err, t.errlog)) =
    some (⟨0, 0, 0, 0⟩, 5#4, 0x0020#16) := by decide

/-! ## Codec: sections 4.1 to 4.4 -/

theorem test_iput : leaves (.iput 0x54) cap16 (fun t => (t.ib, t.ilen)) = some ([0x54#8], 1) := by decide
theorem test_iput_full : leaves (.iput 0x30) { cap16 with ib := cipher } (fun t => (t.ib, t.err)) =
    some (cipher, 7#4) := by decide
theorem test_pad : leaves .pad { cap16 with ib := message, rng := ⟨[0xAA, 0xBB, 0xCC, 0xDD], 0⟩ }
    (fun t => (t.ib, t.rng)) = some (message ++ [1#8, 0xAA#8, 0xBB#8, 0xCC#8], ⟨[0xDD#8], 3⟩) := by decide
theorem test_pad_seven : leaves .pad { cap16 with ib := ascii ['A', 'B', 'C', 'D', 'E', 'F', 'G'] }
    (fun t => (t.ib, t.rng.taken)) = some (ascii ['A', 'B', 'C', 'D', 'E', 'F', 'G'] ++ [1#8], 0) := by decide
theorem test_ldblk : leaves (.ldblk 0) { cap16 with ib := message ++ [1#8, 0xAA#8, 0xBB#8, 0xCC#8] } State.x =
    some ⟨0x5445, 0x5354, 0x01AA, 0xBBCC⟩ := by decide
theorem test_ldblk_short : leaves (.ldblk 0) { cap16 with ib := message } (fun t => (t.x, t.err)) =
    some (⟨0, 0, 0, 0⟩, 8#4) := by decide
theorem test_sthex : leaves .sthex { cap16 with x := ⟨0xFFFF, 0xABCD, 0x0A0B, 0x00F0⟩ } State.ob =
    some (ascii ['F', 'F', 'F', 'F', 'A', 'B', 'C', 'D', '0', 'A', '0', 'B', '0', '0', 'F', '0']) := by decide
theorem test_sthex_full : leaves .sthex { cap16 with ob := [9#8] } (fun t => (t.ob, t.err)) = some ([9#8], 7#4) := by decide
theorem test_ldhex_mixed_case : leaves (.ldhex 0) { cap16 with
    ib := ascii ['0', 'a', '1', 'B', '2', 'c', '3', 'D', '4', 'e', '5', 'F', '6', '7', '8', '9'] } State.x =
    some ⟨0x0A1B, 0x2C3D, 0x4E5F, 0x6789⟩ := by decide
theorem test_ldhex_not_hex : leaves (.ldhex 0) { cap16 with
    ib := ascii ['8', '3', '7', 'A', 'D', '6', 'F', '8', '4', '6', '2', '1', '3', 'E', '7', 'G'] }
    (fun t => (t.x, t.err)) = some (⟨0, 0, 0, 0⟩, 4#4) := by decide
theorem test_stblk : leaves .stblk (regs 0x5445 0x5354 0x01AA 0xBBCC) State.ob =
    some (message ++ [1#8, 0xAA#8, 0xBB#8, 0xCC#8]) := by decide
theorem test_stblk_full : leaves .stblk { cap16 with ob := cipher } (fun t => (t.ob, t.err)) = some (cipher, 7#4) := by decide
theorem test_unpad : leaves .unpad { cap16 with ob := message ++ [1#8, 0xAA#8, 0x01#8, 0xCC#8] } State.ob = some message := by
  decide
theorem test_unpad_none : leaves .unpad { cap16 with ob := message } State.ob = some message := by decide

/-! ## Message commands and CLR: sections 5.1 to 5.5 -/

/-- "TEST" under "KEY", the draws `AA BB CC`. -/
def sealing : State := { cap64 with kb := key, ib := message, rng := ⟨[0xAA, 0xBB, 0xCC], 0⟩ }
/-- Its ciphertext under "KEY". -/
def opening : State := { cap64 with kb := key, ib := cipher }

theorem test_encmsg : leaves .encmsg sealing (fun t => (t.ob, t.x, t.kb ++ t.ib, t.rng.taken, t.err)) =
    some (cipher, ⟨0x837A, 0xD6F8, 0x4621, 0x3E77⟩, [], 3, 0#4) := by decide +kernel
theorem test_encmsg_too_long : leaves .encmsg { cap16 with kb := key, ib := message ++ message ++ [0x39#8] }
    (fun t => (t.ib.length, t.err, t.errlog)) = some (9, 7#4, 0x0080#16) := by decide
theorem test_decmsg : leaves .decmsg opening (fun t => (t.ob, t.x, t.kb ++ t.ib, t.kvalid, t.err)) =
    some (message, ⟨0x5445, 0x5354, 0x01AA, 0xBBCC⟩, [], false, 0#4) := by decide +kernel
theorem test_decmsg_not_hex : leaves .decmsg { cap64 with kb := key, ib := [0x5A#8, 0x5A#8, 0x5A#8, 0x5A#8] }
    (fun t => (t.ob, t.kb, t.err, t.errlog)) = some ([], key, 4#4, 0x0010#16) := by decide
theorem test_clr_key_only : leaves (.clr 1) { ready with ib := message, ob := message, errlog := 2 }
    (fun t => (t.kb, t.kvalid, t.ib, t.ob, t.errlog)) = some ([], false, message, message, 2#16) := by decide +kernel
theorem test_clr_buffers : leaves (.clr 6) { ready with ib := message, ob := message, x := ⟨1, 2, 3, 4⟩ }
    (fun t => (t.kb, t.kvalid, t.ib, t.ob, t.x)) = some (key, true, [], [], ⟨1, 2, 3, 4⟩) := by decide +kernel

/-! ## A step: decoding, an illegal word, reset, no input -/

theorem test_step_runs_word : (after (step (cap16.withFetchWord 32 0x10C0BEEF))).map State.x = some ⟨0, 0, 0, 0xBEEF⟩ := by
  decide
theorem test_step_illegal : (after (step (cap16.withFetchWord 32 0x21000001))).map (fun t => (t.err, t.errlog)) =
    some (9#4, 0x0200#16) := by decide
theorem test_step_reset : after (step { ready with x := ⟨1, 2, 3, 4⟩, errlog := 2, port := [.reset] }) = some cap64 := by
  decide +kernel
theorem test_step_idle : after (step ready) = some ready := by decide +kernel

/-! ## Assembler (R58, R59) -/

theorem test_asm_ldi_hex : parseLine ['L', 'D', 'I', ' ', 'X', '3', ',', ' ', '0', 'x', 'B', 'E', 'E', 'F', ' ', ';', 'c'] =
    some [.ldi .D 0xBEEF] := by decide
theorem test_asm_keyx : parseLine ['K', 'E', 'Y', 'X', ' ', '0', 'x', '4', 'B', ' ', '6', '9'] =
    some [.kput 0x4B, .kput 0x45] := by decide
theorem test_asm_clrall : parseLine ['C', 'L', 'R', 'A', 'L', 'L'] = some [.clr 15] := by decide

/-! ## Witnesses: for each obligation with hypotheses, values that meet them, clause by clause at the boundaries -/

theorem witness_ResetLeavesStatedValues : (0 : Nat) < 52 ∧ (51 : Nat) < 52 := by decide
theorem witness_ResetAndIdleSteps :
    ({ ready with port := [.reset, .command 0#32] } : State).port = .reset :: [.command 0#32] ∧ ready.port = [] :=
  ⟨rfl, rfl⟩
theorem witness_StepRunsDecodedCommand :
    ({ ready with port := [.command 0x10C0BEEF#32, .reset] } : State).port = .command 0x10C0BEEF#32 :: [.reset] ∧
    decode 0x10C0BEEF#32 = .ok (.ldi .D 0xBEEF) ∧ 0x10C0BEEF < 2 ^ 32 ∧
    decode (BitVec.ofNat 32 0x10C0BEEF) = .ok (.ldi .D 0xBEEF) := ⟨rfl, by decide, by decide, by decide⟩
theorem witness_IllegalWords : IllegalWord 0x7F000000#32 ∧ IllegalWord 0x21000001#32 ∧ IllegalWord 0x01000010#32 ∧ ¬ IllegalWord 0x0100000F#32 := by
  refine ⟨?_, ?_, ?_, ?_⟩ <;> simp only [IllegalWord] <;> decide
theorem witness_DecodeOfEncode : (Instr.clr 15).wellFormed = true ∧ (Instr.ldi .D 0xFFFF).wellFormed = true := by decide
theorem witness_EncodeOfDecode : decode 0x22C0FFFF#32 = .ok (.ldk .D 0xFFFF) := by decide
theorem witness_ArithmeticLaws : 2 ≤ (2#16).toNat ∧ 2 ≤ (0xFFFF#16).toNat := by decide
theorem witness_KputAppendsKeyByte : known.kb.length = 16 ∧ ready.kb.length ≠ 16 := by decide +kernel
theorem witness_KexpExpandsKey : cap16.kb.length = 0 ∧ (1 ≤ [0x4B#8].length ∧ [0x4B#8].length ≤ 16) ∧
    1 ≤ known.kb.length ∧ known.kb.length ≤ 16 := by decide +kernel
theorem witness_SubkeyBits : 1 ≤ [0x4B#8].length ∧ [0x4B#8].length ≤ 16 ∧ 3 < 8 ∧ 8 * 6 + 3 ≤ 51 ∧ 15 < 16 := by decide
theorem witness_LdkReadsSubkey : cap16.kvalid = false ∧ ready.kvalid = true ∧ 51 < (52#16).toNat ∧ (51#16).toNat ≤ 51 := by
  decide +kernel
theorem witness_ShortKeyExtension : 1 ≤ sealing.kb.length ∧ sealing.kb.length + 13 ≤ 16 ∧
    ∃ t, exec .encmsg sealing = .next t ∧ decide (t.err = 0#4) = true :=
  ⟨by decide, by decide, leaves_next (fun t => decide (t.err = 0#4)) (by decide +kernel)⟩
theorem witness_OnlyKexp : (∃ t, exec .kexp { cap64 with kb := key } = .next t ∧ t.kvalid = true) ∧
    (∃ t, exec .encb ready = .next t ∧ t.kvalid = true) :=
  ⟨leaves_next State.kvalid (by decide +kernel), leaves_next State.kvalid (by decide +kernel)⟩
theorem witness_BlockCommands : cap16.kvalid = false ∧ ready.kvalid = true := by decide +kernel
theorem witness_IputAppendsInputByte : ({ cap16 with ib := cipher } : State).ib.length = { cap16 with ib := cipher }.cap ∧
    cap16.ib.length ≠ cap16.cap := by decide
theorem witness_PadAppends : cap16.ib.length % 8 = 0 ∧ sealing.ib.length % 8 ≠ 0 ∧
    ({ cap16 with ib := message ++ key } : State).ib.length % 8 = 7 := by decide
theorem witness_LdblkLoadsBlock : ({ cap16 with ib := message ++ key } : State).ib.length < 8 * (0#16).toNat + 8 ∧
    8 * (1#16).toNat + 8 ≤ opening.ib.length ∧ opening.ib[8 * (1#16).toNat + 2 * Reg.D.bits.toNat + 1]? = some 0x37#8 := by
  decide
theorem witness_SthexAppends : ({ cap16 with ob := [9#8] } : State).cap < [9#8].length + 16 ∧
    cap16.ob.length + 16 ≤ cap16.cap := by decide
theorem witness_LdhexParsesGroup :
    ({ cap64 with ib := cipher.take 15 } : State).ib.length < 16 * (0#16).toNat + 16 ∧
    16 * (0#16).toNat + 16 ≤ opening.ib.length ∧
    (∃ c ∈ State.memRead { cap64 with ib := 0x47#8 :: cipher } .IB (16 * (0#16).toNat) 16, hexVal c = none) ∧
    (∀ c ∈ opening.memRead .IB (16 * (0#16).toNat) 16, hexVal c ≠ none) ∧
    (opening.readByte .IB (16 * (0#16).toNat + 4 * Reg.D.bits.toNat + 3)).bind hexVal = some 7#4 := by decide
theorem witness_StblkAppends : ({ cap16 with ob := [9#8] ++ message ++ message } : State).cap < 9 + 8 ∧
    ({ cap16 with ob := message ++ message } : State).ob.length + 8 ≤ cap16.cap := by decide
theorem witness_UnpadCuts : (unpad (message ++ [1#8])).length < (message ++ [1#8]).length ∧ 3 < (unpad message).length := by
  decide
theorem witness_HexTextRoundTrips : cipher.length = 16 ∧ ∀ c ∈ cipher, hexVal c ≠ none := by decide
theorem witness_BlockBytes : 8 * 0 + 8 ≤ (joinBlock ⟨1, 2, 3, 4⟩).length ∧ 8 * 1 + 8 ≤ cipher.length := by decide
theorem witness_UnpadRecovers : (message.length % 8 ≠ 0 ∧ [9#8, 9#8, 9#8].length = 7 - message.length % 8) ∧
    (∀ c ∈ message, c ≠ 1#8) ∧ ([0x41#8, 1#8, 1#8][1]? = some 1#8 ∧ ∀ q, q < 1 → [0x41#8, 1#8, 1#8][q]? ≠ some 1#8) := by
  decide
theorem witness_PadUnpadKexp : (∃ t, exec .pad sealing = .next t) ∧ (∃ t, exec .unpad ready = .next t) ∧
    (∃ t, exec .kexp ready = .next t) := ⟨exec_next _ _, exec_next _ _, exec_next _ _⟩
theorem witness_CodecLeavesKey : (Instr.iput 1).mnemonic ∈ [.IPUT, .PAD, .LDBLK, .STHEX, .LDHEX, .STBLK, .UNPAD] ∧
    ∃ t, exec (.iput 1) ready = .next t := ⟨by decide, exec_next _ _⟩
theorem witness_BytesOutside : (Instr.sthex).mnemonic ∉ [.CLR, .UNPAD, .ENCMSG, .DECMSG] ∧
    (∃ t, exec .sthex ready = .next t) ∧ ¬ inStoredSpan .sthex ready .OB 16 ∧ inStoredSpan .sthex ready .OB 15 := by
  refine ⟨by decide, exec_next _ _, ?_, 0, 16, rfl, by decide, by decide⟩
  rintro ⟨f, c, h, h1, h2⟩
  cases h; exact absurd h2 (by decide)
theorem witness_EncmsgChecks : cap16.kb.length = 0 ∧
    (ready.kb.length ≠ 0 ∧ ready.ib.length = 0) ∧
    (let s : State := { cap16 with kb := key, ib := message ++ message ++ [0x39#8] }
     s.kb.length ≠ 0 ∧ s.ib.length ≠ 0 ∧ s.cap < 2 * (8 * ((s.ib.length + 7) / 8))) := by decide +kernel
theorem witness_EncmsgEncrypts : let s : State := { cap16 with kb := key, ib := message ++ message }
    1 ≤ s.kb.length ∧ s.kb.length ≤ 16 ∧ 1 ≤ s.ib.length ∧ 2 * (8 * ((s.ib.length + 7) / 8)) ≤ s.cap ∧
    (s.ib.length + 7) / 8 ≤ 65536 := by decide
theorem witness_EncmsgOutput : ∃ t, exec .encmsg sealing = .next t ∧ decide (t.err = 0#4) = true :=
  leaves_next (fun t => decide (t.err = 0#4)) (by decide +kernel)
theorem witness_EncmsgFiller : (∃ t, exec .encmsg sealing = .next t ∧ decide (t.err = 0#4) = true) ∧
    (∃ u, exec .encmsg { sealing with rng := ⟨[0, 0, 0], 0⟩ } = .next u) ∧
    ({ cap16 with ib := message ++ message } : State).ib.length % 8 = 0 ∧
    ({ cap16 with ib := message ++ key } : State).ib.length % 8 = 7 ∧
    (sealing.ib.length % 8 ≠ 0 ∧ 7 - sealing.ib.length % 8 ≤ sealing.rng.answers.length ∧
      sealing.rng.answers.take (7 - sealing.ib.length % 8) ≠ [0#8, 0#8, 0#8].take (7 - sealing.ib.length % 8)) :=
  ⟨witness_EncmsgOutput, exec_next _ _, by decide, by decide, by decide⟩
theorem witness_EncmsgAccepts : 1 ≤ sealing.kb.length ∧ 1 ≤ sealing.ib.length ∧
    ({ cap16 with ib := message ++ message } : State).ib.length = cap16.cap / 2 := by decide
theorem witness_DecmsgChecks : cap16.kb.length = 0 ∧ (ready.kb.length ≠ 0 ∧ ready.ib.length = 0) ∧
    (opening.kb.length ≠ 0 ∧ sealing.ib.length ≠ 0 ∧ sealing.ib.length % 16 ≠ 0) ∧
    (∃ c ∈ 0x47#8 :: cipher.tail, hexVal c = none) ∧ (0x47#8 :: cipher.tail).length % 16 = 0 := by decide +kernel
theorem witness_DecmsgDecrypts : 1 ≤ opening.kb.length ∧ opening.kb.length ≤ 16 ∧ 1 ≤ opening.ib.length ∧
    opening.ib.length ≤ opening.cap ∧ opening.ib.length % 16 = 0 ∧ (∀ c ∈ opening.ib, hexVal c ≠ none) ∧
    opening.ib.length / 16 ≤ 65536 := by decide
theorem witness_DecmsgOutputLength : opening.ib.length ≤ opening.cap ∧
    (∃ t, exec .decmsg opening = .next t ∧ decide (t.err = 0#4) = true) ∧
    deserialize opening.ib = some [⟨0x837A, 0xD6F8, 0x4621, 0x3E77⟩] :=
  ⟨by decide, leaves_next (fun t => decide (t.err = 0#4)) (by decide +kernel), by decide +kernel⟩
theorem witness_ClrMask : (Instr.clr 15).wellFormed = true ∧ (Instr.clr 0).wellFormed = true := by decide
theorem witness_MessageRoundTrip : 1 ≤ sealing.kb.length ∧ sealing.kb.length ≤ 16 ∧ 1 ≤ sealing.ib.length ∧
    (∀ c ∈ sealing.ib, c ≠ 1#8) ∧ 2 * (8 * ((sealing.ib.length + 7) / 8)) ≤ sealing.cap ∧
    opening.kb = sealing.kb ∧ leaves .encmsg sealing State.ob = some opening.ib ∧ opening.ib.length ≤ opening.cap := by
  decide +kernel
theorem witness_HostDecrypt : let escape : List Byte → List Byte := id
    (∀ x, escape (escape x) = x) ∧ (∀ c ∈ escape message, c ≠ 1#8) ∧ 1 ≤ (escape message).length ∧
    1 ≤ (escape key).length ∧ (escape key).length ≤ 16 ∧
    2 * (8 * (((escape message).length + 7) / 8)) ≤ cap64.cap := ⟨fun _ => rfl, by decide⟩
theorem witness_ErrorsChange : (∃ t, exec .kexp cap16 = .next t ∧ decide (t.err ≠ 0#4) = true) ∧
    (after (execWord 0x7F000000#32 cap16)).map State.err = some 9#4 :=
  ⟨leaves_next (fun t => decide (t.err ≠ 0#4)) (by decide), by decide⟩
theorem witness_CommandsReport : opening.ib.length ≤ opening.cap ∧ ∃ t, exec .decmsg opening = .next t :=
  ⟨by decide, exec_next _ _⟩
theorem witness_OnlyReset : let s : State := { cap16 with errlog := 2, port := [.command 0x01000000#32] }
    (∃ t, step s = .next t) ∧ (∀ rest, s.port ≠ .reset :: rest) ∧ s.errlog.getLsbD 1 = true :=
  ⟨exec_next (.clr 0) _, nofun, by decide⟩
theorem witness_HostView : message.length = opening.kb.length + 1 ∧ knownKey.length = opening.ib.length := by decide
theorem witness_Invariant : ready.Inv ∧ ∃ t, step ready = .next t :=
  ⟨⟨fun _ => ⟨by decide, rfl⟩, nofun, by decide, by decide, by decide, by decide, by decide, fun h => absurd rfl h⟩, _, rfl⟩

end Sys2Proof.Tests
end

/-! PROOFS. The statements about the state as a whole (10_state.md): what reset leaves, what the host reads, the invariant of
every step (R14, R16, R17, R22, R23), and the two rules on `KVALID` and `ERRLOG`.

The idea: say once, command by command, what the steps of a command do to the bounded buffers, to `ERRLOG` and to the key
material (`commandSteps_effect`); the rules about all commands and all steps are then read off that one lemma. -/

namespace Sys2Proof.Machine

variable {s t u : State}

/-! ## Steps that go through, taken apart -/

/-- A sequence that goes through went through its first part. -/
theorem steps_bind_ok {r : Steps} {f : State → Steps} (h : r.bind f = .ok u) : ∃ v, r = .ok v ∧ f v = .ok u := by
  cases r with
  | error e => cases h
  | ok v => exact ⟨v, rfl, h⟩

/-- Steps that go through passed the check before them. -/
theorem steps_guard_ok {p : Prop} [Decidable p] {e : ErrorCode} {r : Steps} (h : (if p then .error e else r) = .ok u) :
    r = .ok u := by
  by_cases hp : p
  · rw [if_pos hp] at h; cases h
  · rwa [if_neg hp] at h

/-! ## KEXP -/

theorem kexpSteps_ok (h : kexpSteps s = .ok u) : s.kb ≠ [] ∧ u = s.loadSchedule (keySchedule s.kb) := by
  by_cases hk : s.kb.length = 0
  · cases (kexpSteps_empty hk).symm.trans h
  · exact ⟨mt List.length_eq_zero_iff.mpr hk, (Except.ok.inj ((kexpSteps_key hk).symm.trans h)).symm⟩

/-! ## Steps that write the data registers only -/

/-- `u` is `s` but for the data registers. -/
def DiffersInRegisters (s u : State) : Prop := ∃ p, u = s.setBlock p

theorem ldkSteps_ok {rd : Reg} {i : Nat} (h : ldkSteps rd i s = .ok u) : DiffersInRegisters s u := by
  cases hv : s.kvalid with
  | false => cases (ldkSteps_invalid rd i hv).symm.trans h
  | true =>
    by_cases hi : i < 52
    · exact ⟨_, (Except.ok.inj ((ldkSteps_inside rd hv hi).symm.trans h)).symm⟩
    · cases (ldkSteps_outside rd hv (by omega)).symm.trans h

theorem encbSteps_ok (h : encbSteps s = .ok u) : DiffersInRegisters s u := by
  cases hv : s.kvalid with
  | false => cases (encbSteps_invalid hv).symm.trans h
  | true => exact ⟨_, (Except.ok.inj ((encbSteps_valid hv).symm.trans h)).symm⟩

theorem decbSteps_ok (h : decbSteps s = .ok u) : DiffersInRegisters s u := by
  cases hv : s.kvalid with
  | false => cases (decbSteps_invalid hv).symm.trans h
  | true => exact ⟨_, (Except.ok.inj ((decbSteps_valid hv).symm.trans h)).symm⟩

theorem ldblkSteps_ok {n : Nat} (h : ldblkSteps n s = .ok u) : DiffersInRegisters s u := by
  by_cases hn : 8 * n + 8 ≤ s.ib.length
  · exact ⟨_, (Except.ok.inj ((ldblkSteps_inside hn).symm.trans h)).symm⟩
  · cases (ldblkSteps_outside (by omega)).symm.trans h

theorem ldhexSteps_ok {n : Nat} (h : ldhexSteps n s = .ok u) : DiffersInRegisters s u := by
  by_cases hn : 16 * n + 16 ≤ s.ib.length
  · cases hp : parseHex (s.memRead .IB (16 * n) 16) with
    | none => cases (ldhexSteps_bad hn hp).symm.trans h
    | some p => exact ⟨p, (Except.ok.inj ((ldhexSteps_good hn hp).symm.trans h)).symm⟩
  · cases (ldhexSteps_outside (by omega)).symm.trans h

/-! ## Steps that append to the output buffer -/

/-- `u` is `s` with bytes appended to OB, which had room for them (R17). -/
def AppendsOutput (s u : State) : Prop := ∃ b, s.ob.length + b.length ≤ s.cap ∧ u = s.memAppend .OB b

theorem sthexSteps_ok (h : sthexSteps s = .ok u) : AppendsOutput s u := by
  rcases Nat.lt_or_ge s.cap (s.ob.length + 16) with hc | hc
  · cases (sthexSteps_full hc).symm.trans h
  · exact ⟨toHex s.x, by simpa [toHex, wordHex] using hc, (Except.ok.inj ((sthexSteps_room hc).symm.trans h)).symm⟩

theorem stblkSteps_ok (h : stblkSteps s = .ok u) : AppendsOutput s u := by
  rcases Nat.lt_or_ge s.cap (s.ob.length + 8) with hc | hc
  · cases (stblkSteps_full hc).symm.trans h
  · exact ⟨joinBlock s.x, by simpa [joinBlock] using hc, (Except.ok.inj ((stblkSteps_room hc).symm.trans h)).symm⟩

/-! ## Bounds and the error log -/

/-- From `s` to `u`, `ERRLOG` and the capacity are unchanged, and IB and OB stay within the capacity (R17). -/
structure BoundsKept (s u : State) : Prop where
  errlog : u.errlog = s.errlog
  cfg : u.cfg = s.cfg
  ib : s.ib.length ≤ s.cap → u.ib.length ≤ u.cap
  ob : s.ob.length ≤ s.cap → u.ob.length ≤ u.cap

theorem BoundsKept.refl (s : State) : BoundsKept s s := ⟨rfl, rfl, id, id⟩

theorem BoundsKept.trans (h : BoundsKept s t) (h' : BoundsKept t u) : BoundsKept s u :=
  ⟨h'.errlog.trans h.errlog, h'.cfg.trans h.cfg, h'.ib ∘ h.ib, h'.ob ∘ h.ob⟩

theorem DiffersInRegisters.boundsKept (h : DiffersInRegisters s u) : BoundsKept s u := by
  obtain ⟨p, rfl⟩ := h
  exact ⟨rfl, rfl, id, id⟩

theorem AppendsOutput.boundsKept (h : AppendsOutput s u) : BoundsKept s u := by
  obtain ⟨b, hb, rfl⟩ := h
  exact ⟨rfl, rfl, id, fun _ => by simpa using hb⟩

theorem memTruncOB_boundsKept (s : State) (n : Nat) : BoundsKept s (s.memTrunc .OB n) :=
  ⟨rfl, rfl, id, fun h => (List.length_take_le' n s.ob).trans h⟩

theorem consume_boundsKept (s : State) : BoundsKept s s.consume := ⟨rfl, rfl, fun _ => Nat.zero_le _, id⟩

theorem kexpSteps_boundsKept (h : kexpSteps s = .ok u) : BoundsKept s u := by
  obtain ⟨-, rfl⟩ := kexpSteps_ok h
  exact ⟨rfl, rfl, id, id⟩

/-- Padding never passes the capacity, which is a multiple of 8 (R6, R138). -/
theorem length_padMsg_draw_le_cap (s : State) (h : s.ib.length ≤ s.cap) :
    (padMsg s.ib (s.draw (fillerCount s.ib.length)).1).length ≤ s.cap := by
  have hcap : s.cap = 16 * s.cfg.capUnits + 16 := rfl
  by_cases hm : s.ib.length % 8 = 0
  · simpa [padMsg, hm] using h
  · simp only [padMsg, fillerCount, hm, if_false, List.length_append, List.length_singleton, draw_length]
    omega

theorem padSteps_boundsKept (h : padSteps s = .ok u) : BoundsKept s u := by
  rw [padSteps_eq] at h
  cases h
  exact ⟨rfl, rfl, length_padMsg_draw_le_cap s, id⟩

theorem unpadSteps_boundsKept (h : unpadSteps s = .ok u) : BoundsKept s u := by
  cases h
  exact memTruncOB_boundsKept s _

theorem encBlockSteps_boundsKept {n : Nat} (h : encBlockSteps n s = .ok u) : BoundsKept s u := by
  obtain ⟨v, hv, h⟩ := steps_bind_ok h
  obtain ⟨w, hw, h⟩ := steps_bind_ok h
  exact (ldblkSteps_ok hv).boundsKept.trans ((encbSteps_ok hw).boundsKept.trans (sthexSteps_ok h).boundsKept)

theorem decBlockSteps_boundsKept {n : Nat} (h : decBlockSteps n s = .ok u) : BoundsKept s u := by
  obtain ⟨v, hv, h⟩ := steps_bind_ok h
  obtain ⟨w, hw, h⟩ := steps_bind_ok h
  exact (ldhexSteps_ok hv).boundsKept.trans ((decbSteps_ok hw).boundsKept.trans (stblkSteps_ok h).boundsKept)

/-- A loop whose turns keep the bounds keeps them. -/
theorem forBlocks_boundsKept {body : Nat → State → Steps} (hbody : ∀ n s u, body n s = .ok u → BoundsKept s u)
    {count : Nat} (h : forBlocks body count s = .ok u) : BoundsKept s u := by
  induction count generalizing u with
  | zero => cases h; exact .refl s
  | succ n ih =>
    obtain ⟨v, hv, h⟩ := steps_bind_ok h
    exact (ih hv).trans (hbody n v u h)

/-! ## The key material -/

/-- What command `i` can do to the key bytes, the subkeys and `KVALID` (R13, R14, R95, R96, R161): keep them, drop the schedule,
or, for KEXP alone, expand the key. -/
inductive KeyEffect (i : Instr) (s u : State) : Prop
  | kept (k : u.k = s.k) (kvalid : u.kvalid = s.kvalid) (kb : u.kb = s.kb)
  | dropped (k : u.k = Vector.replicate 52 0#16) (kvalid : u.kvalid = false)
      (kb : s.kb.length ≤ 16 → u.kb.length ≤ 16)
  | expanded (isKexp : i = .kexp) (key : s.kb ≠ []) (eq : u = s.loadSchedule (keySchedule s.kb))

theorem KeyEffect.of_consume (i : Instr) (s v : State) : KeyEffect i s v.consume :=
  .dropped rfl rfl fun _ => Nat.zero_le _

/-- What a command's steps can do to everything the invariant speaks of but `ERR`. -/
structure CommandEffect (i : Instr) (s u : State) : Prop where
  bounds : BoundsKept s u
  key : KeyEffect i s u

theorem DiffersInRegisters.effect {i : Instr} (h : DiffersInRegisters s u) : CommandEffect i s u :=
  ⟨h.boundsKept, by obtain ⟨p, rfl⟩ := h; exact .kept rfl rfl rfl⟩

theorem AppendsOutput.effect {i : Instr} (h : AppendsOutput s u) : CommandEffect i s u :=
  ⟨h.boundsKept, by obtain ⟨b, -, rfl⟩ := h; exact .kept rfl rfl rfl⟩

theorem kputSteps_effect {i : Instr} {imm : Byte} (h : kputSteps imm s = .ok u) : CommandEffect i s u := by
  by_cases hk : s.kb.length = 16
  · cases (kputSteps_full imm hk).symm.trans h
  · rw [kputSteps_room imm hk] at h
    cases h
    exact ⟨⟨rfl, rfl, id, id⟩, .dropped rfl rfl fun hle => by rw [List.length_append, List.length_singleton]; omega⟩

theorem kexpSteps_effect (h : kexpSteps s = .ok u) : CommandEffect .kexp s u :=
  ⟨kexpSteps_boundsKept h, .expanded rfl (kexpSteps_ok h).1 (kexpSteps_ok h).2⟩

theorem iputSteps_effect {i : Instr} {imm : Byte} (h : iputSteps imm s = .ok u) : CommandEffect i s u := by
  by_cases hb : s.ib.length = s.cap
  · cases (iputSteps_full imm hb).symm.trans h
  · rw [iputSteps_room imm hb] at h
    cases h
    refine ⟨⟨rfl, rfl, fun hle => ?_, id⟩, .kept rfl rfl rfl⟩
    have hlt : s.ib.length < s.cap := Nat.lt_of_le_of_ne hle hb
    show (s.ib ++ [imm]).length ≤ s.cap
    simpa using hlt

theorem padSteps_effect {i : Instr} (h : padSteps s = .ok u) : CommandEffect i s u :=
  ⟨padSteps_boundsKept h, by rw [padSteps_eq] at h; cases h; exact .kept rfl rfl rfl⟩

theorem unpadSteps_effect {i : Instr} (h : unpadSteps s = .ok u) : CommandEffect i s u :=
  ⟨unpadSteps_boundsKept h, by cases h; exact .kept rfl rfl rfl⟩

theorem clrSteps_effect {i : Instr} {mask : BitVec 16} (h : clrSteps mask s = .ok u) : CommandEffect i s u := by
  rw [clrSteps_eq] at h
  cases h
  constructor
  case bounds =>
    refine ⟨rfl, rfl, fun hle => ?_, fun hle => ?_⟩
    · cases mask.getLsbD 1 with
      | false => exact hle
      | true => exact Nat.zero_le _
    · cases mask.getLsbD 2 with
      | false => exact hle
      | true => exact Nat.zero_le _
  case key =>
    cases mask.getLsbD 0 with
    | false => exact .kept rfl rfl rfl
    | true => exact .dropped rfl rfl fun _ => Nat.zero_le _

theorem encmsgSteps_effect {i : Instr} (h : encmsgSteps s = .ok u) : CommandEffect i s u := by
  have hwork : encmsgWork s = .ok u := steps_guard_ok (steps_guard_ok (steps_guard_ok h))
  obtain ⟨s1, h1, hwork⟩ := steps_bind_ok hwork
  obtain ⟨s2, h2, hwork⟩ := steps_bind_ok hwork
  obtain ⟨s3, h3, hwork⟩ := steps_bind_ok hwork
  cases hwork
  have hloop : BoundsKept (s2.memTrunc .OB 0) s3 := forBlocks_boundsKept (fun _ _ _ => encBlockSteps_boundsKept) h3
  exact ⟨(kexpSteps_boundsKept h1).trans <| (padSteps_boundsKept h2).trans <|
    (memTruncOB_boundsKept s2 0).trans <| hloop.trans (consume_boundsKept s3), .of_consume i s s3⟩

theorem decmsgSteps_effect {i : Instr} (h : decmsgSteps s = .ok u) : CommandEffect i s u := by
  have hwork : decmsgWork s = .ok u := steps_guard_ok (steps_guard_ok (steps_guard_ok h))
  obtain ⟨s1, h1, hwork⟩ := steps_bind_ok hwork
  obtain ⟨s2, h2, hwork⟩ := steps_bind_ok hwork
  obtain ⟨s3, h3, hwork⟩ := steps_bind_ok hwork
  cases hwork
  have hloop : BoundsKept (s1.memTrunc .OB 0) s2 := forBlocks_boundsKept (fun _ _ _ => decBlockSteps_boundsKept) h2
  exact ⟨(kexpSteps_boundsKept h1).trans <| (memTruncOB_boundsKept s1 0).trans <|
    hloop.trans <| (unpadSteps_boundsKept h3).trans (consume_boundsKept s3), .of_consume i s s3⟩

/-! ## Every command, every word, every step -/

/-- What the steps of any command do, where they report no error. -/
theorem commandSteps_effect {i : Instr} (h : commandSteps i s = .ok u) : CommandEffect i s u := by
  cases i with
  | clr mask => exact clrSteps_effect h
  | ldi rd imm => cases h; exact DiffersInRegisters.effect ⟨_, rfl⟩
  | add rd rs1 rs2 => cases h; exact DiffersInRegisters.effect ⟨_, rfl⟩
  | mul rd rs1 rs2 => cases h; exact DiffersInRegisters.effect ⟨_, rfl⟩
  | ainv rd rs1 => cases h; exact DiffersInRegisters.effect ⟨_, rfl⟩
  | minv rd rs1 => cases h; exact DiffersInRegisters.effect ⟨_, rfl⟩
  | kput imm => exact kputSteps_effect h
  | kexp => exact kexpSteps_effect h
  | ldk rd index => exact (ldkSteps_ok h).effect
  | encb => exact (encbSteps_ok h).effect
  | decb => exact (decbSteps_ok h).effect
  | iput imm => exact iputSteps_effect h
  | pad => exact padSteps_effect h
  | ldblk n => exact (ldblkSteps_ok h).effect
  | sthex => exact (sthexSteps_ok h).effect
  | ldhex n => exact (ldhexSteps_ok h).effect
  | stblk => exact (stblkSteps_ok h).effect
  | unpad => exact unpadSteps_effect h
  | encmsg => exact encmsgSteps_effect h
  | decmsg => exact decmsgSteps_effect h

/-- Everything a command word can leave: what the command it decodes to leaves, or IllegalCommand raised (R40, R175). -/
theorem execWord_cases {w : CommandWord} (h : execWord w s = .next t) :
    (∃ i, decode w = .ok i ∧ exec i s = .next t) ∨ t = s.raise .illegalCommand := by
  unfold execWord at h
  cases hd : decode w with
  | ok i => rw [hd] at h; exact .inl ⟨i, rfl, h⟩
  | error e => rw [hd] at h; cases h; exact .inr rfl

/-- Everything a step can do: wait, reset, or run the host's next word (R5, R40, R190). -/
theorem step_cases (h : step s = .next t) :
    (s.port = [] ∧ t = s) ∨
    (∃ rest, s.port = .reset :: rest ∧ t = State.resetEvent { s with port := rest }) ∨
    (∃ w rest, s.port = .command w :: rest ∧ execWord w { s with port := rest } = .next t) := by
  unfold step at h
  split at h
  case h_1 hp => cases h; exact .inl ⟨hp, rfl⟩
  case h_2 rest hp => cases h; exact .inr (.inl ⟨rest, hp, rfl⟩)
  case h_3 w rest hp => exact .inr (.inr ⟨w, rest, hp, h⟩)

/-! ## The invariant -/

theorem resetWith_inv (c : Config) : (State.resetWith c).Inv where
  schedule_valid := nofun
  schedule_zero := fun _ => rfl
  kb_bounded := Nat.zero_le _
  ib_bounded := Nat.zero_le _
  ob_bounded := Nat.zero_le _
  err_legal := Nat.zero_le _
  errlog_legal := by simp
  err_logged := fun h => absurd rfl h

/-- The invariant does not speak of the random source and the host's inputs. -/
theorem State.Inv.set_rng_port (h : s.Inv) (g : Rng) (p : List HostEvent) : ({ s with rng := g, port := p } : State).Inv :=
  ⟨h.schedule_valid, h.schedule_zero, h.kb_bounded, h.ib_bounded, h.ob_bounded, h.err_legal, h.errlog_legal, h.err_logged⟩

theorem resetEvent_inv (s : State) : s.resetEvent.Inv := (resetWith_inv s.cfg).set_rng_port s.rng s.port

/-- An error's bit is one of the bits 1 to 9 (R23, R170). -/
theorem errlogBit_code_legal (e : ErrorCode) : errlogBit e.code &&& ~~~errlogLegal = 0#16 := by cases e <;> decide

/-- Raising an error keeps the invariant: its number is legal, and its bit is recorded (R176). -/
theorem State.Inv.raise (h : s.Inv) (e : ErrorCode) : (s.raise e).Inv where
  schedule_valid := h.schedule_valid
  schedule_zero := h.schedule_zero
  kb_bounded := h.kb_bounded
  ib_bounded := h.ib_bounded
  ob_bounded := h.ob_bounded
  err_legal := (code_range e).2
  errlog_legal := by
    rw [State.raise_errlog, BitVec.and_or_distrib_right, h.errlog_legal, errlogBit_code_legal, BitVec.or_zero]
  err_logged := fun _ => by simp [getLsbD_errlogBit]

/-- R14's two clauses and R16 under each of the three things a command can do to the key material. -/
theorem KeyEffect.keeps_schedule {i : Instr} (hk : KeyEffect i s u) (h : s.Inv) :
    (u.kvalid = true → u.kb ≠ [] ∧ u.k = keySchedule u.kb) ∧
    (u.kvalid = false → u.k = Vector.replicate 52 0#16) ∧ u.kb.length ≤ 16 := by
  cases hk with
  | kept k kvalid kb =>
    rw [k, kvalid, kb]
    exact ⟨h.schedule_valid, h.schedule_zero, h.kb_bounded⟩
  | dropped k kvalid kb => exact ⟨fun hv => by simp [kvalid] at hv, fun _ => k, kb h.kb_bounded⟩
  | expanded _ key eq =>
    subst eq
    exact ⟨fun _ => ⟨key, rfl⟩, nofun, h.kb_bounded⟩

theorem CommandEffect.succeed_inv {i : Instr} (he : CommandEffect i s u) (h : s.Inv) : u.succeed.Inv := by
  obtain ⟨hvalid, hzero, hkb⟩ := he.key.keeps_schedule h
  exact
    { schedule_valid := hvalid
      schedule_zero := hzero
      kb_bounded := hkb
      ib_bounded := he.bounds.ib h.ib_bounded
      ob_bounded := he.bounds.ob h.ob_bounded
      err_legal := Nat.zero_le _
      errlog_legal := by rw [State.succeed_errlog, he.bounds.errlog]; exact h.errlog_legal
      err_logged := fun hne => absurd rfl hne }

theorem exec_inv {i : Instr} (h : s.Inv) (hx : exec i s = .next t) : t.Inv := by
  rcases exec_cases hx with ⟨u, hu, rfl⟩ | ⟨e, -, rfl⟩
  · exact (commandSteps_effect hu).succeed_inv h
  · exact h.raise e

theorem execWord_inv {w : CommandWord} (h : s.Inv) (hx : execWord w s = .next t) : t.Inv := by
  rcases execWord_cases hx with ⟨i, -, hi⟩ | rfl
  · exact exec_inv h hi
  · exact h.raise _

/-- Settles O59: an idle step changes nothing, reset leaves the reset values, and a word either reports an error, which
`State.Inv.raise` covers, or has the effect of its command. -/
theorem everyStepKeepsInvariant : Obligations.EveryStepKeepsInvariant := by
  intro s t h hs
  rcases step_cases hs with ⟨-, rfl⟩ | ⟨rest, -, rfl⟩ | ⟨w, rest, -, hw⟩
  · exact h
  · exact resetEvent_inv _
  · exact execWord_inv (h.set_rng_port s.rng rest) hw

/-- Settles O58: at reset KVALID is 0 with every subkey 0, the buffers are empty and nothing is recorded. -/
theorem invariantHoldsAfterReset : Obligations.InvariantHoldsAfterReset :=
  ⟨resetWith_inv, resetWith_inv Config.platform⟩

/-! ## `KVALID` -/

/-- Settles O21: by what each command can do to the key material, an error changing none of it. -/
theorem onlyKexpMakesScheduleValid : Obligations.OnlyKexpMakesScheduleValid := by
  intro i s t hx hv
  rcases exec_cases hx with ⟨u, hu, rfl⟩ | ⟨e, -, rfl⟩
  · cases (commandSteps_effect hu).key with
    | kept k kvalid kb => exact .inr ⟨kvalid.symm.trans hv, k, kb⟩
    | dropped k kvalid kb => cases kvalid.symm.trans hv
    | expanded isKexp _ _ => exact .inl isKexp
  · exact .inr ⟨hv, rfl, rfl⟩

/-! ## `ERRLOG` -/

theorem raise_keeps_errlog_bit {c : Nat} (e : ErrorCode) (hc : s.errlog.getLsbD c = true) :
    (s.raise e).errlog.getLsbD c = true := by
  simp [hc]

theorem exec_keeps_errlog_bit {i : Instr} {c : Nat} (hx : exec i s = .next t) (hc : s.errlog.getLsbD c = true) :
    t.errlog.getLsbD c = true := by
  rcases exec_cases hx with ⟨u, hu, rfl⟩ | ⟨e, -, rfl⟩
  · rw [State.succeed_errlog, (commandSteps_effect hu).bounds.errlog]
    exact hc
  · exact raise_keeps_errlog_bit e hc

/-- Settles O56: a command that succeeds leaves `ERRLOG`, and an error only sets a bit of it. -/
theorem onlyResetClearsErrlog : Obligations.OnlyResetClearsErrlog := by
  intro s t hs hreset c hc
  rcases step_cases hs with ⟨-, rfl⟩ | ⟨rest, hp, -⟩ | ⟨w, rest, -, hw⟩
  · exact hc
  · exact absurd hp (hreset rest)
  · rcases execWord_cases hw with ⟨i, -, hi⟩ | rfl
    · exact exec_keeps_errlog_bit hi hc
    · exact raise_keeps_errlog_bit .illegalCommand hc

/-! ## Reset and the host's view -/

theorem resetWith_getX (c : Config) (r : Reg) : (State.resetWith c).getX r = 0#16 := by cases r <;> rfl

theorem resetWith_subkey (c : Config) {i : Nat} (hi : i < 52) : (State.resetWith c).subkey i = some 0#16 := by
  simp [State.subkey, hi]

/-- Settles O1: register by register and subkey by subkey; the other fields are the reset state's own. -/
theorem resetLeavesStatedValues : Obligations.ResetLeavesStatedValues :=
  ⟨fun c => ⟨resetWith_getX c, fun _ => resetWith_subkey c, rfl, rfl, rfl, rfl, rfl, rfl⟩, rfl⟩

/-- The host's view speaks of KB and IB by their lengths only, and of the subkeys not at all (R24). -/
theorem hostView_congr {kb ib : List Byte} (k : Subkeys) (hkb : kb.length = s.kb.length) (hib : ib.length = s.ib.length) :
    ({ s with kb := kb, ib := ib, k := k } : State).hostView = s.hostView := by
  simp only [State.hostView, State.klen, State.ilen, State.olen, hkb, hib]

/-- Settles O57: the view's fields are those of R24, and a read of OB is the byte at that position. -/
theorem hostViewIsStatusDataAndOutput : Obligations.HostViewIsStatusDataAndOutput :=
  fun s _ _ k hkb hib => ⟨hostView_congr k hkb hib, rfl, readByte_eq s .OB⟩

end Sys2Proof.Machine

/-! PROOFS. The statements about memory access and ordering (20_memory.md): what a step does with the host's next word (R40), the
bytes a command leaves as they are (R30, R35), and the commands that change nothing when given again (R37). -/

namespace Sys2Proof.Machine

variable {s t u : State}

/-! ## A step runs the host's next word -/

theorem step_command {w : CommandWord} {rest : List HostEvent} (hp : s.port = .command w :: rest) :
    step s = execWord w { s with port := rest } := by
  simp only [step, hp]

theorem execWord_of_decode {w : CommandWord} {i : Instr} (hw : decode w = .ok i) (s : State) : execWord w s = exec i s := by
  simp only [execWord, hw]

/-- The word given by `withFetchWord` is taken by the next step, which leaves the host's other inputs as they were. -/
theorem step_withFetchWord (s : State) {n : Nat} (hn : n < 2 ^ 32) :
    step (s.withFetchWord 32 n) = execWord (BitVec.ofNat 32 n) s := by
  have hport : (s.withFetchWord 32 n).port = .command (BitVec.ofNat 32 n) :: s.port := by
    rw [State.withFetchWord, State.pushCommand_port, Nat.mod_eq_of_lt hn]
  exact step_command hport

/-- Settles O3: by the step on a command word and the engine's answer to a word that decodes. -/
theorem stepRunsDecodedCommand : Obligations.StepRunsDecodedCommand := by
  refine ⟨fun s w rest hp => step_command hp, fun s w rest i hp hw => ?_, fun s n i hn hw => ?_⟩
  · rw [step_command hp, execWord_of_decode hw]
  · rw [step_withFetchWord s hn, execWord_of_decode hw]

/-! ## What a command does to the buffers -/

/-- What a command that neither empties nor cuts a buffer does to the three of them (R30, R35): nothing, or it appends bytes to
one, at its old end and in the number `storedSpan` gives. -/
inductive BufferEffect (i : Instr) (s u : State) : Prop
  | unchanged (buffers : u.buffer = s.buffer)
  | appended (sp : Space) (b : List Byte) (span : storedSpan i s = some (sp, (s.buffer sp).length, b.length))
      (buffers : u.buffer = (s.memAppend sp b).buffer)

theorem DiffersInRegisters.bufferEffect {i : Instr} (h : DiffersInRegisters s u) : BufferEffect i s u := by
  obtain ⟨p, rfl⟩ := h
  exact .unchanged rfl

theorem kputSteps_bufferEffect {imm : Byte} (h : kputSteps imm s = .ok u) : BufferEffect (.kput imm) s u := by
  obtain rfl := Except.ok.inj (steps_guard_ok h)
  exact .appended .KB [imm] rfl rfl

theorem iputSteps_bufferEffect {imm : Byte} (h : iputSteps imm s = .ok u) : BufferEffect (.iput imm) s u := by
  obtain rfl := Except.ok.inj (steps_guard_ok h)
  exact .appended .IB [imm] rfl rfl

theorem sthexSteps_bufferEffect (h : sthexSteps s = .ok u) : BufferEffect .sthex s u := by
  obtain rfl := Except.ok.inj (steps_guard_ok h)
  exact .appended .OB (toHex s.x) rfl rfl

theorem stblkSteps_bufferEffect (h : stblkSteps s = .ok u) : BufferEffect .stblk s u := by
  obtain rfl := Except.ok.inj (steps_guard_ok h)
  exact .appended .OB (joinBlock s.x) rfl rfl

theorem kexpSteps_bufferEffect (h : kexpSteps s = .ok u) : BufferEffect .kexp s u := by
  obtain ⟨-, rfl⟩ := kexpSteps_ok h
  exact .unchanged rfl

theorem padSteps_aligned (hm : s.ib.length % 8 = 0) : padSteps s = .ok s := if_pos hm

/-- PAD appends the sentinel and `7 - m` filler bytes, `8 - m` in all (R138). -/
theorem padSteps_bufferEffect (h : padSteps s = .ok u) : BufferEffect .pad s u := by
  by_cases hm : s.ib.length % 8 = 0
  · rw [padSteps_aligned hm] at h
    cases h
    exact .unchanged rfl
  · rw [padSteps, if_neg hm, draw_state] at h
    cases h
    refine .appended .IB (sentinel :: (s.draw (7 - s.ib.length % 8)).1) ?span rfl
    have hcount : 8 - s.ib.length % 8 = 7 - s.ib.length % 8 + 1 := by omega
    simp [storedSpan, Instr.mnemonic, State.ilen, hm, draw_length, hcount]

theorem commandSteps_bufferEffect {i : Instr} (hi : i.mnemonic ∉ [.CLR, .UNPAD, .ENCMSG, .DECMSG])
    (h : commandSteps i s = .ok u) : BufferEffect i s u := by
  cases i with
  | clr mask => simp [Instr.mnemonic] at hi
  | ldi rd imm => cases h; exact DiffersInRegisters.bufferEffect ⟨_, rfl⟩
  | add rd rs1 rs2 => cases h; exact DiffersInRegisters.bufferEffect ⟨_, rfl⟩
  | mul rd rs1 rs2 => cases h; exact DiffersInRegisters.bufferEffect ⟨_, rfl⟩
  | ainv rd rs1 => cases h; exact DiffersInRegisters.bufferEffect ⟨_, rfl⟩
  | minv rd rs1 => cases h; exact DiffersInRegisters.bufferEffect ⟨_, rfl⟩
  | kput imm => exact kputSteps_bufferEffect h
  | kexp => exact kexpSteps_bufferEffect h
  | ldk rd index => exact (ldkSteps_ok h).bufferEffect
  | encb => exact (encbSteps_ok h).bufferEffect
  | decb => exact (decbSteps_ok h).bufferEffect
  | iput imm => exact iputSteps_bufferEffect h
  | pad => exact padSteps_bufferEffect h
  | ldblk n => exact (ldblkSteps_ok h).bufferEffect
  | sthex => exact sthexSteps_bufferEffect h
  | ldhex n => exact (ldhexSteps_ok h).bufferEffect
  | stblk => exact stblkSteps_bufferEffect h
  | unpad => simp [Instr.mnemonic] at hi
  | encmsg => simp [Instr.mnemonic] at hi
  | decmsg => simp [Instr.mnemonic] at hi

theorem readByte_congr (h : t.buffer = u.buffer) (sp : Space) (a : Nat) : t.readByte sp a = u.readByte sp a := by
  simp only [State.readByte, h]

/-- An appended byte's address is in the stored span; past the span there is no byte, before or after (R18). -/
theorem BufferEffect.readByte_outside {i : Instr} (h : BufferEffect i s u) {sp : Space} {a : Nat}
    (hout : ¬ inStoredSpan i s sp a) : u.readByte sp a = s.readByte sp a := by
  cases h with
  | unchanged buffers => exact readByte_congr buffers sp a
  | appended sq b span buffers =>
    rw [readByte_congr buffers, readByte_memAppend]
    split
    case isFalse => rfl
    case isTrue hend =>
      obtain ⟨rfl, hfirst⟩ := hend
      have hpast : (s.buffer sp).length + b.length ≤ a :=
        Nat.le_of_not_lt fun hlast => hout ⟨_, _, span, hfirst, hlast⟩
      rw [readByte_eq, List.getElem?_eq_none hfirst, List.getElem?_eq_none (by omega)]

/-- Settles O40: an error changes no buffer, and a command that succeeds stores nothing outside its span. -/
theorem bytesOutsideStoredSpanUnchanged : Obligations.BytesOutsideStoredSpanUnchanged := by
  intro i s t hi hx sp a hout
  rcases exec_cases hx with ⟨u, hu, rfl⟩ | ⟨e, -, rfl⟩
  · calc u.succeed.readByte sp a = u.readByte sp a := readByte_congr rfl sp a
      _ = s.readByte sp a := (commandSteps_bufferEffect hi hu).readByte_outside hout
  · exact readByte_congr rfl sp a

/-! ## Commands given again -/

theorem raise_raise (s : State) (e : ErrorCode) : (s.raise e).raise e = s.raise e := by
  simp only [State.raise, BitVec.or_assoc, BitVec.or_self]

/-- A command whose steps leave the state it succeeded in as it is changes nothing when given there. -/
theorem exec_of_steps_fixed {i : Instr} (h : commandSteps i u.succeed = .ok u.succeed) :
    exec i u.succeed = .next u.succeed := by
  rw [exec_eq_finish, h]
  rfl

/-- The padded message has a whole number of blocks (R131). -/
theorem length_padMsg_mod {buf rnd : List Byte} (h : rnd.length = fillerCount buf.length) :
    (padMsg buf rnd).length % 8 = 0 := by
  by_cases hm : buf.length % 8 = 0
  · rwa [padMsg, if_pos hm]
  · rw [fillerCount, if_neg hm] at h
    rw [padMsg, if_neg hm, List.length_append, List.length_append, List.length_singleton, h]
    omega

theorem exec_pad_again (h : exec .pad s = .next t) : exec .pad t = .next t := by
  rw [exec_eq_finish, commandSteps, padSteps_eq] at h
  cases h
  exact exec_of_steps_fixed (padSteps_aligned (length_padMsg_mod (draw_length s _)))

theorem unpad_unpad (buf : List Byte) : unpad (unpad buf) = unpad buf := List.takeWhile_idem

theorem exec_unpad_again (h : exec .unpad s = .next t) : exec .unpad t = .next t := by
  rw [exec_eq_finish, commandSteps, unpadSteps_eq] at h
  cases h
  refine exec_of_steps_fixed ((unpadSteps_eq _).trans ?_)
  simp only [State.succeed, unpad_unpad]

/-- KEXP keeps KB, so it expands the same key again; an error leaves KB empty, so it is reported again (R96). -/
theorem exec_kexp_again (h : exec .kexp s = .next t) : exec .kexp t = .next t := by
  rw [exec_eq_finish, commandSteps] at h
  by_cases hk : s.kb.length = 0
  · rw [kexpSteps_empty hk] at h
    cases h
    rw [exec_eq_finish, commandSteps, kexpSteps_empty (s := s.raise .missingKey) hk, finish_error, raise_raise]
  · rw [kexpSteps_key hk] at h
    cases h
    exact exec_of_steps_fixed (kexpSteps_key hk)

/-- Settles O38: command by command. -/
theorem padUnpadKexpIdempotent : Obligations.PadUnpadKexpIdempotent := by
  rintro i s t (rfl | rfl | rfl) hx
  · exact exec_pad_again hx
  · exact exec_unpad_again hx
  · exact exec_kexp_again hx

end Sys2Proof.Machine

/-! PROOFS. The statements about the encoding (30_encoding.md R51 to R57).

The idea: every mask of R52 and R54 tests the opcode and one range of bits, so `w AND mask = match` says that the opcode is
`op` and that range is 0. The decoder is then one line, `decode_eq_ok_iff`: a word decodes to a command exactly when it passes
the test R54 prints for the command's mnemonic, the operands being the fields of the word. -/

namespace Sys2Proof

/-! ## Masks that test the opcode and one range of bits -/

/-- The word with 1 in `op` and in the `n` bits from bit `lo`. Each mask of R52 and R54 is one. -/
def opcodeAndBits (lo n : Nat) : CommandWord := place (BitVec.allOnes 8) 24 ||| place (BitVec.allOnes n) lo

theorem getLsbD_place {n : Nat} (v : BitVec n) {lo j : Nat} (hj : j < 32) :
    (place v lo).getLsbD j = (decide (lo ≤ j) && v.getLsbD (j - lo)) := by
  simp only [place, BitVec.getLsbD_shiftLeft, BitVec.getLsbD_setWidth, hj, show j - lo < 32 by omega,
    decide_true, Bool.true_and, ← decide_not, Nat.not_lt]

theorem getLsbD_opcodeAndBits {lo n j : Nat} (hj : j < 32) :
    (opcodeAndBits lo n).getLsbD j = decide (24 ≤ j ∨ lo ≤ j ∧ j < lo + n) := by
  rw [opcodeAndBits, BitVec.getLsbD_or, getLsbD_place _ hj, getLsbD_place _ hj]
  simp only [BitVec.getLsbD_allOnes, ← Bool.decide_and, ← Bool.decide_or]
  exact decide_eq_decide.mpr (by omega)

/-- A field has a value when its bits, at their places in the word, are the value's. -/
theorem extractLsb'_eq_iff {w : CommandWord} {lo n : Nat} {v : BitVec n} :
    w.extractLsb' lo n = v ↔ ∀ j, lo ≤ j → j < lo + n → w.getLsbD j = v.getLsbD (j - lo) := by
  rw [BitVec.eq_of_getLsbD_eq_iff]
  constructor
  · intro h j hlo hlt
    have := h (j - lo) (by omega)
    rwa [BitVec.getLsbD_extractLsb', decide_eq_true (by omega), Bool.true_and, Nat.add_sub_cancel' hlo] at this
  · intro h j hj
    rw [BitVec.getLsbD_extractLsb', decide_eq_true hj, Bool.true_and, h (lo + j) (by omega) (by omega),
      Nat.add_sub_cancel_left]

/-- Under such a mask the test of R54 asks for the opcode in `op` and zeros in the `n` bits. -/
theorem and_opcodeAndBits_eq_matchOf_iff {lo n : Nat} (hn : lo + n ≤ 24) {w : CommandWord} {op : BitVec 8} :
    w &&& opcodeAndBits lo n = matchOf op ↔ opField w = op ∧ w.extractLsb' lo n = 0#n := by
  have htest : w &&& opcodeAndBits lo n = matchOf op ↔ ∀ j < 32,
      (w.getLsbD j && decide (24 ≤ j ∨ lo ≤ j ∧ j < lo + n)) = (decide (24 ≤ j) && op.getLsbD (j - 24)) := by
    rw [BitVec.eq_of_getLsbD_eq_iff]
    exact forall₂_congr fun j hj => by
      rw [BitVec.getLsbD_and, getLsbD_opcodeAndBits hj, matchOf, getLsbD_place _ hj]
  rw [htest, opField, extractLsb'_eq_iff, extractLsb'_eq_iff]
  constructor
  · refine fun h => ⟨fun j h24 hj => ?_, fun j hlo hlt => ?_⟩
    · simpa [h24] using h j hj
    · simpa [hlo, hlt, show ¬ 24 ≤ j by omega] using h j (by omega)
  · rintro ⟨hop, hzero⟩ j hj
    by_cases h24 : 24 ≤ j
    · simp [h24, hop j h24 hj]
    · by_cases hfield : lo ≤ j ∧ j < lo + n
      · obtain ⟨hlo, hlt⟩ := hfield
        simp [h24, hzero j hlo hlt]
      · simp [h24, hfield]

/-- The reserved bits of each format stand together: the lowest of them and their number (R52). -/
def Format.reserved : Format → Nat × Nat
  | .Z => (0, 24)
  | .R => (0, 18)
  | .U => (0, 20)
  | .I => (16, 6)
  | .N => (16, 8)
  | .B => (8, 16)

/-- Every reserved bit of the format is 0 in the word. -/
def Format.ReservedClear (f : Format) (w : CommandWord) : Prop :=
  w.extractLsb' f.reserved.1 f.reserved.2 = 0#f.reserved.2

theorem Format.mask_eq (f : Format) : f.mask = opcodeAndBits f.reserved.1 f.reserved.2 := by
  cases f <;> rfl

/-- What the test of R57 asks of a word, format by format. -/
theorem Format.test_iff (f : Format) {w : CommandWord} {op : BitVec 8} :
    w &&& f.mask = matchOf op ↔ opField w = op ∧ f.ReservedClear w := by
  rw [f.mask_eq]
  exact and_opcodeAndBits_eq_matchOf_iff (by cases f <;> decide)

/-! ## The rows of the opcode map -/

theorem rowOf_op : ∀ row ∈ opcodeTable, rowOf row.op = some row := by decide

theorem rowOf_eq_some_iff {op : BitVec 8} {row : Row} : rowOf op = some row ↔ row ∈ opcodeTable ∧ row.op = op := by
  constructor
  · intro h
    exact ⟨List.mem_of_find?_eq_some h, by simpa using List.find?_some h⟩
  · rintro ⟨hrow, rfl⟩
    exact rowOf_op row hrow

theorem exists_row (m : Mnemonic) : ∃ row ∈ opcodeTable, row.mnemonic = m := by cases m <;> decide

theorem rowMatch_eq : ∀ row ∈ opcodeTable, rowMatch row.mnemonic = matchOf row.op := by decide

theorem rowMask_eq : ∀ row ∈ opcodeTable, row.mnemonic ≠ .CLR → rowMask row.mnemonic = row.format.mask := by decide

theorem row_of_CLR : ∀ row ∈ opcodeTable, row.mnemonic = .CLR → row = ⟨.CLR, 0x01, .N⟩ := by decide

/-- CLR's mask is legal when bits 15:4 of the word are 0 (R53). -/
theorem clrMaskLegal_imm16Field_iff {w : CommandWord} :
    clrMaskLegal (imm16Field w) = true ↔ w.extractLsb' 4 12 = 0#12 := by
  have hbits : (imm16Field w).extractLsb' 4 12 = w.extractLsb' 4 12 := by
    apply BitVec.eq_of_getLsbD_eq
    intro j hj
    simp only [imm16Field, BitVec.getLsbD_extractLsb', hj, show 4 + j < 16 by omega, decide_true, Bool.true_and,
      Nat.zero_add]
  rw [clrMaskLegal, beq_iff_eq, hbits]

/-- The mask R54 prints for CLR tests the reserved bits 23:16 of its format and bits 15:4 of `imm16` at once. -/
theorem clr_test_iff {w : CommandWord} :
    w &&& rowMask .CLR = rowMatch .CLR ↔
      w &&& Format.N.mask = matchOf 0x01 ∧ clrMaskLegal (imm16Field w) = true := by
  have hmask : rowMask .CLR = opcodeAndBits 4 20 := rfl
  have hmatch : rowMatch .CLR = matchOf 0x01 := rfl
  have hjoin : w.extractLsb' 4 20 = 0#20 ↔ w.extractLsb' 16 8 = 0#8 ∧ w.extractLsb' 4 12 = 0#12 := by
    simp only [extractLsb'_eq_iff, BitVec.getLsbD_zero]
    exact ⟨fun h => ⟨fun j hlo hlt => h j (by omega) hlt, fun j hlo hlt => h j hlo (by omega)⟩,
      fun ⟨hhigh, hlow⟩ j hlo hlt => (lt_or_ge j 16).elim (hlow j hlo) (hhigh j · hlt)⟩
  rw [hmask, hmatch, and_opcodeAndBits_eq_matchOf_iff (by decide), Format.test_iff, and_assoc, hjoin,
    clrMaskLegal_imm16Field_iff]
  rfl

/-- A word passes the decoder's checks for a row exactly when the mask and the match R54 prints for it say so. -/
theorem row_test_iff {row : Row} (hrow : row ∈ opcodeTable) {w : CommandWord} :
    w &&& rowMask row.mnemonic = rowMatch row.mnemonic ↔
      w &&& row.format.mask = matchOf row.op ∧ (row.mnemonic = .CLR → clrMaskLegal (imm16Field w) = true) := by
  by_cases hclr : row.mnemonic = .CLR
  · obtain rfl := row_of_CLR row hrow hclr
    simpa using clr_test_iff
  · simp [rowMask_eq row hrow hclr, rowMatch_eq row hrow, hclr]

/-! ## The decoder by its rows -/

theorem mnemonic_build (m : Mnemonic) (w : CommandWord) : (build m w).mnemonic = m := by cases m <;> rfl

/-- A word decodes exactly by the row whose printed mask and match it passes, to that row's command (R54, R57). -/
theorem decode_eq_ok_iff_row {w : CommandWord} {i : Instr} :
    decode w = .ok i ↔ ∃ row ∈ opcodeTable,
      w &&& rowMask row.mnemonic = rowMatch row.mnemonic ∧ build row.mnemonic w = i := by
  constructor
  · intro h
    unfold decode at h
    split at h
    next => cases h
    next row hop =>
      obtain ⟨hrow, -⟩ := rowOf_eq_some_iff.mp hop
      split_ifs at h with htest hmask
      refine ⟨row, hrow, (row_test_iff hrow).mpr ⟨not_not.mp htest, fun hclr => ?_⟩, Except.ok.inj h⟩
      simpa [hclr] using hmask
  · rintro ⟨row, hrow, htest, rfl⟩
    obtain ⟨hformat, hclr⟩ := (row_test_iff hrow).mp htest
    have hop : rowOf (opField w) = some row := rowOf_eq_some_iff.mpr ⟨hrow, (row.format.test_iff.mp hformat).1.symm⟩
    simp only [decode, hop]
    rw [if_neg (not_not.mpr hformat), if_neg]
    rintro ⟨hm, hillegal⟩
    simp [hclr hm] at hillegal

/-- The decoder in one line: the mask and the match of its mnemonic decide a command, and its operands are the fields. -/
theorem decode_eq_ok_iff {w : CommandWord} {i : Instr} :
    decode w = .ok i ↔ w &&& rowMask i.mnemonic = rowMatch i.mnemonic ∧ build i.mnemonic w = i := by
  rw [decode_eq_ok_iff_row]
  constructor
  · rintro ⟨row, -, htest, rfl⟩
    rw [mnemonic_build]
    exact ⟨htest, rfl⟩
  · rintro ⟨htest, hbuild⟩
    obtain ⟨row, hrow, hm⟩ := exists_row i.mnemonic
    exact ⟨row, hrow, by rwa [hm], by rwa [hm]⟩

/-- Settles O5: the decoder in one line, where a command's mnemonic stands for its row. -/
theorem maskAndMatchDecideEveryCommand : Obligations.MaskAndMatchDecideEveryCommand := by
  intro w m
  constructor
  · rintro ⟨i, hi, rfl⟩
    exact (decode_eq_ok_iff.mp hi).1
  · intro htest
    exact ⟨build m w, decode_eq_ok_iff.mpr (by rw [mnemonic_build]; exact ⟨htest, rfl⟩), mnemonic_build m w⟩

/-! ## Encoding and decoding -/

theorem encode_passes_test (i : Instr) : Laws.MatchesRow.Statement i := by
  cases i with
  | clr mask => exact Laws.MatchesRow.clr mask
  | ldi rd imm => exact Laws.MatchesRow.ldi rd imm
  | add rd rs1 rs2 => exact Laws.MatchesRow.add rd rs1 rs2
  | mul rd rs1 rs2 => exact Laws.MatchesRow.mul rd rs1 rs2
  | ainv rd rs1 => exact Laws.MatchesRow.ainv rd rs1
  | minv rd rs1 => exact Laws.MatchesRow.minv rd rs1
  | kput imm => exact Laws.MatchesRow.kput imm
  | kexp => exact Laws.MatchesRow.kexp
  | ldk rd index => exact Laws.MatchesRow.ldk rd index
  | encb => exact Laws.MatchesRow.encb
  | decb => exact Laws.MatchesRow.decb
  | iput imm => exact Laws.MatchesRow.iput imm
  | pad => exact Laws.MatchesRow.pad
  | ldblk n => exact Laws.MatchesRow.ldblk n
  | sthex => exact Laws.MatchesRow.sthex
  | ldhex n => exact Laws.MatchesRow.ldhex n
  | stblk => exact Laws.MatchesRow.stblk
  | unpad => exact Laws.MatchesRow.unpad
  | encmsg => exact Laws.MatchesRow.encmsg
  | decmsg => exact Laws.MatchesRow.decmsg

/-- The fields of the encoding are the operands (R51, R52). -/
theorem build_encode (i : Instr) : build i.mnemonic (encode i) = i := by
  cases i <;> simp [Instr.mnemonic, encode, build, imm16Field_encodeN, imm16Field_encodeI, imm8Field_encodeB,
    rdField_encodeI, rdField_encodeR, rs1Field_encodeR, rs2Field_encodeR, rdField_encodeU, rs1Field_encodeU]

/-- Settles O7: the encoding passes its row's test, and its fields are the operands. -/
theorem decodeOfEncodeIsTheCommand : Obligations.DecodeOfEncodeIsTheCommand :=
  fun i hi => decode_eq_ok_iff.mpr ⟨encode_passes_test i hi, build_encode i⟩

theorem build_wellFormed {m : Mnemonic} {w : CommandWord} (h : w &&& rowMask m = rowMatch m) :
    (build m w).wellFormed = true := by
  cases m with
  | CLR => exact (clr_test_iff.mp h).2
  | _ => rfl

/-- A word that passes a row's test has nothing but the opcode and the fields of the format (R52). -/
theorem encode_build {m : Mnemonic} {w : CommandWord} (h : w &&& rowMask m = rowMatch m) : encode (build m w) = w := by
  cases m with
  | CLR => exact encodeN_fields (clr_test_iff.mp h).1
  | LDI | LDK => exact encodeI_fields h
  | ADD | MUL => exact encodeR_fields h
  | AINV | MINV => exact encodeU_fields h
  | KPUT | IPUT => exact encodeB_fields h
  | LDBLK | LDHEX => exact encodeN_fields h
  | KEXP | ENCB | DECB | PAD | STHEX | STBLK | UNPAD | ENCMSG | DECMSG => exact encodeZ_fields h

/-- Settles O8: a word that passes a row's test is the encoding of its own fields, and CLR's test includes its mask. -/
theorem encodeOfDecodeIsTheWord : Obligations.EncodeOfDecodeIsTheWord := by
  intro w i hi
  obtain ⟨htest, hbuild⟩ := decode_eq_ok_iff.mp hi
  rw [← hbuild]
  exact ⟨build_wellFormed htest, encode_build htest⟩

/-! ## Illegal words -/

/-- The opcodes of a format, in the table's order (R54). -/
def Format.opcodes (f : Format) : List (BitVec 8) := (opcodeTable.filter fun row => row.format == f).map (·.op)

theorem op_mem_opcodes_iff (f : Format) : ∀ row ∈ opcodeTable, row.op ∈ f.opcodes ↔ row.format = f := by
  cases f <;> decide

theorem op_eq_clr_iff : ∀ row ∈ opcodeTable, row.op = 0x01#8 ↔ row.mnemonic = .CLR := by decide

/-- The three cases of R55 by the opcode map. -/
theorem illegalWord_iff {w : CommandWord} : Machine.IllegalWord w ↔
    opField w ∉ opcodeTable.map (·.op) ∨ (∃ f : Format, opField w ∈ f.opcodes ∧ ¬ f.ReservedClear w) ∨
      (opField w = 0x01#8 ∧ w.extractLsb' 4 12 ≠ 0#12) := by
  constructor
  · rintro (h | h | h | h | h | h | h | h)
    · exact .inl h
    · exact .inr (.inl ⟨.Z, h⟩)
    · exact .inr (.inl ⟨.R, h⟩)
    · exact .inr (.inl ⟨.U, h⟩)
    · exact .inr (.inl ⟨.I, h⟩)
    · exact .inr (.inl ⟨.N, h⟩)
    · exact .inr (.inl ⟨.B, h⟩)
    · exact .inr (.inr h)
  · rintro (h | ⟨f, h⟩ | h)
    · exact .inl h
    · cases f with
      | Z => exact .inr (.inl h)
      | R => exact .inr (.inr (.inl h))
      | U => exact .inr (.inr (.inr (.inl h)))
      | I => exact .inr (.inr (.inr (.inr (.inl h))))
      | N => exact .inr (.inr (.inr (.inr (.inr (.inl h)))))
      | B => exact .inr (.inr (.inr (.inr (.inr (.inr (.inl h))))))
    · exact .inr (.inr (.inr (.inr (.inr (.inr (.inr h))))))

/-- A word with a row's opcode is illegal exactly when it fails that row's test. -/
theorem illegalWord_iff_of_op {row : Row} (hrow : row ∈ opcodeTable) {w : CommandWord} (hop : opField w = row.op) :
    Machine.IllegalWord w ↔ ¬ w &&& rowMask row.mnemonic = rowMatch row.mnemonic := by
  have hassigned : row.op ∈ opcodeTable.map (·.op) := List.mem_map_of_mem hrow
  rw [row_test_iff hrow, row.format.test_iff, clrMaskLegal_imm16Field_iff, illegalWord_iff, hop]
  simp only [op_mem_opcodes_iff _ row hrow, op_eq_clr_iff row hrow, exists_eq_left', hassigned, not_true, false_or,
    true_and, not_and_or, Classical.not_imp, ne_eq]

/-- Decoding is total: the illegal words are those that are no command (R55). -/
theorem illegalWord_iff_not_decode {w : CommandWord} : Machine.IllegalWord w ↔ ¬ ∃ i, decode w = .ok i := by
  constructor
  · rintro hillegal ⟨i, hi⟩
    obtain ⟨row, hrow, htest, -⟩ := decode_eq_ok_iff_row.mp hi
    obtain ⟨hop, -⟩ := row.format.test_iff.mp ((row_test_iff hrow).mp htest).1
    exact (illegalWord_iff_of_op hrow hop).mp hillegal htest
  · intro hnone
    by_cases hassigned : opField w ∈ opcodeTable.map (·.op)
    · obtain ⟨row, hrow, hop⟩ := List.mem_map.mp hassigned
      exact (illegalWord_iff_of_op hrow hop.symm).mpr fun htest =>
        hnone ⟨_, decode_eq_ok_iff_row.mpr ⟨row, hrow, htest, rfl⟩⟩
    · exact illegalWord_iff.mpr (.inl hassigned)

/-- IllegalCommand has number 9 (R170, R175). -/
theorem execWord_of_not_decode {w : CommandWord} (h : ¬ ∃ i, decode w = .ok i) (s : Machine.State) :
    Machine.execWord w s = .next (Machine.raised s 9) := by
  cases hw : decode w with
  | ok i => exact absurd ⟨i, hw⟩ h
  | error e =>
    simp only [Machine.execWord, hw]
    rfl

/-- Settles O4: no row's test accepts an illegal word, and the engine's answer to a word that is no command is error 9. -/
theorem illegalWordsRaiseIllegalCommand : Obligations.IllegalWordsRaiseIllegalCommand :=
  fun _ s => ⟨illegalWord_iff_not_decode, fun h => execWord_of_not_decode (illegalWord_iff_not_decode.mp h) s⟩

/-- Settles O6: the decoder run on each word. -/
theorem sampleWordsDecode : Obligations.SampleWordsDecode := by
  unfold Obligations.SampleWordsDecode
  decide

end Sys2Proof

/-! PROOFS. The assembler reads back the line it prints (30_encoding.md R58).

The idea: every character of a mnemonic or of an operand's text is plain (`plainChar`), so the line is cut again at the blanks
and commas the printer put between them, and each piece is read back by its own lemma of Laws/Asm. -/

namespace Sys2Proof.Machine

/-! ## A line from its mnemonic -/

theorem isBlank_of_plainChar {c : Char} (h : plainChar c = true) : isBlank c = false := by
  simp_all [plainChar]

theorem not_comma_of_plainChar {c : Char} (h : plainChar c = true) : (c == ',') = false := by
  simp_all [plainChar]

theorem ne_semicolon_of_plainChar {c : Char} (h : plainChar c = true) : (c != ';') = true := by
  simp_all [plainChar]

/-- No mnemonic is empty or the name of a pseudo-instruction (R59). -/
theorem mnemonicText_not_pseudo (m : Mnemonic) : mnemonicText m ∉ [[], ['K', 'E', 'Y'], ['M', 'S', 'G'],
    ['K', 'E', 'Y', 'X'], ['M', 'S', 'G', 'X'], ['C', 'L', 'R', 'A', 'L', 'L'], ['L', 'D', 'B', 'K']] := by
  cases m <;> decide

theorem takeWhile_append_stop {p : Char → Bool} {t u : List Char} (ht : ∀ c ∈ t, p c = true)
    (hu : ∀ c ∈ u.head?, p c = false) : (t ++ u).takeWhile p = t := by
  rw [List.takeWhile_append_of_pos ht]
  cases u with
  | nil => simp
  | cons c u => simp [hu c rfl]

theorem trim_cons_blank (t : List Char) : trim (' ' :: t) = trim t := rfl

theorem trim_dropWhile_isBlank (t : List Char) : trim (t.dropWhile isBlank) = trim t := by
  rw [trim, trim, List.dropWhile_idempotent]

/-- A mnemonic, then its operands' text: nothing, or a text that begins with a blank and holds no comment. -/
theorem parseLine_mnemonicText (m : Mnemonic) {tail : List Char} (hblank : ∀ c ∈ tail.head?, isBlank c = true)
    (hcomment : ∀ c ∈ tail, (c != ';') = true) :
    parseLine (mnemonicText m ++ tail) = (parseForm m (parseOperands (trim tail))).map fun i => [i] := by
  have hplain := mnemonicText_plain m
  have hpseudo := mnemonicText_not_pseudo m
  have hform := parseMnemonic_text m
  generalize mnemonicText m = head at *
  have hstart : (head ++ tail).dropWhile isBlank = head ++ tail := by
    cases head with
    | nil => simp at hpseudo
    | cons c r => simp [isBlank_of_plainChar (hplain c (by simp))]
  have hstrip : stripComment (head ++ tail) = head ++ tail :=
    List.takeWhile_eq_self_iff.mpr fun c hc => (List.mem_append.mp hc).elim
      (fun h => ne_semicolon_of_plainChar (hplain c h)) (hcomment c)
  have hhead : (head ++ tail).takeWhile (fun c => !isBlank c) = head :=
    takeWhile_append_stop (fun c hc => by simp [isBlank_of_plainChar (hplain c hc)])
      (fun c hc => by simp [hblank c hc])
  have hargs : stripComment (tail.dropWhile isBlank) = tail.dropWhile isBlank :=
    List.takeWhile_eq_self_iff.mpr fun c hc => hcomment c ((List.dropWhile_suffix _).subset hc)
  simp only [List.mem_cons, List.not_mem_nil, or_false, not_or] at hpseudo
  obtain ⟨h0, h1, h2, h3, h4, h5, h6⟩ := hpseudo
  simp only [parseLine, hstart, hstrip, hhead, List.drop_left, hargs, if_neg h0, if_neg h1, if_neg h2, if_neg h3,
    if_neg h4, if_neg h5, if_neg h6, hform, Option.bind_some, trim_dropWhile_isBlank]

/-! ## Operands between commas -/

/-- An operand's text: not empty, every character plain. -/
structure OperandText (t : List Char) : Prop where
  ne_nil : t ≠ []
  plain : ∀ c ∈ t, plainChar c = true

theorem operandTexts_plain (i : Instr) : ∀ t ∈ operandTexts i, OperandText t := by
  have hr : ∀ r, OperandText (regText r) := fun r => ⟨regText_ne_nil r, regText_plain r⟩
  have hd : ∀ n, OperandText (Nat.toDigits 10 n) := fun n => ⟨Nat.toDigits_ne_nil, fun c hc => (toDigits_plain n c hc).1⟩
  cases i <;> simp [operandTexts, hr, hd]

theorem OperandText.trim_eq {t : List Char} (h : OperandText t) : trim t = t :=
  trim_of_ends (fun c hc => isBlank_of_plainChar (h.plain c (List.mem_of_mem_head? hc)))
    (fun c hc => isBlank_of_plainChar (h.plain c (List.mem_of_mem_getLast? hc)))

theorem splitOnChar_ne_nil (sep : Char → Bool) (t : List Char) : splitOnChar sep t ≠ [] := by
  cases t with
  | nil => simp [splitOnChar]
  | cons c r =>
    rw [splitOnChar]
    split <;> split <;> simp

/-- A blank before a text goes into its first piece, where trimming drops it. -/
theorem map_trim_splitOnChar_cons_blank (t : List Char) :
    (splitOnChar (fun c => c == ',') (' ' :: t)).map trim = (splitOnChar (fun c => c == ',') t).map trim := by
  rw [splitOnChar]
  cases hsplit : splitOnChar (fun c => c == ',') t with
  | nil => exact absurd hsplit (splitOnChar_ne_nil _ t)
  | cons piece pieces => rfl

/-- The operands of a line as the printer joins them (`printLine_eq`). -/
def joinOperands (ops : List (List Char)) : List Char := [',', ' '].intercalate ops

theorem joinOperands_singleton (t : List Char) : joinOperands [t] = t := List.intercalate_singleton

theorem joinOperands_cons_cons (t u : List Char) (ops : List (List Char)) :
    joinOperands (t :: u :: ops) = t ++ ',' :: ' ' :: joinOperands (u :: ops) := by
  simp [joinOperands, List.intercalate_cons_cons]

theorem joinOperands_ne_nil {t : List Char} (h : OperandText t) (ops : List (List Char)) :
    joinOperands (t :: ops) ≠ [] := by
  cases ops with
  | nil => rw [joinOperands_singleton]; exact h.ne_nil
  | cons u ops => simp [joinOperands_cons_cons]

/-- The joined operands begin as the first of them. -/
theorem head?_joinOperands {t : List Char} (h : OperandText t) (ops : List (List Char)) :
    (joinOperands (t :: ops)).head? = t.head? := by
  cases ops with
  | nil => rw [joinOperands_singleton]
  | cons u ops => rw [joinOperands_cons_cons, List.head?_append_of_ne_nil t h.ne_nil]

section
variable {t : List Char} {ops : List (List Char)} (h : ∀ u ∈ t :: ops, OperandText u)
include h

theorem plainChar_head?_joinOperands {c : Char} (hc : (joinOperands (t :: ops)).head? = some c) : plainChar c = true := by
  rw [head?_joinOperands (h t List.mem_cons_self)] at hc
  exact (h t List.mem_cons_self).plain c (List.mem_of_mem_head? hc)

theorem plainChar_getLast?_joinOperands {c : Char} (hc : (joinOperands (t :: ops)).getLast? = some c) :
    plainChar c = true := by
  induction ops generalizing t with
  | nil =>
    rw [joinOperands_singleton] at hc
    exact (h t List.mem_cons_self).plain c (List.mem_of_mem_getLast? hc)
  | cons u ops ih =>
    have hops : ∀ v ∈ u :: ops, OperandText v := fun v hv => h v (List.mem_cons_of_mem t hv)
    have hne : joinOperands (u :: ops) ≠ [] := joinOperands_ne_nil (hops u List.mem_cons_self) ops
    rw [joinOperands_cons_cons, List.append_cons, List.append_cons, List.getLast?_append_of_ne_nil _ hne] at hc
    exact ih hops hc

theorem no_semicolon_joinOperands : ∀ c ∈ joinOperands (t :: ops), (c != ';') = true := by
  induction ops generalizing t with
  | nil =>
    rw [joinOperands_singleton]
    exact fun c hc => ne_semicolon_of_plainChar ((h t List.mem_cons_self).plain c hc)
  | cons u ops ih =>
    simp only [joinOperands_cons_cons, List.mem_append, List.mem_cons]
    rintro c (hc | rfl | rfl | hc)
    · exact ne_semicolon_of_plainChar ((h t List.mem_cons_self).plain c hc)
    · rfl
    · rfl
    · exact ih (fun v hv => h v (List.mem_cons_of_mem t hv)) c hc

theorem splitOnChar_joinOperands :
    (splitOnChar (fun c => c == ',') (joinOperands (t :: ops))).map trim = t :: ops := by
  induction ops generalizing t with
  | nil =>
    have ht := h t List.mem_cons_self
    rw [joinOperands_singleton, splitOnChar_plain fun c hc => not_comma_of_plainChar (ht.plain c hc)]
    simp [ht.trim_eq]
  | cons u ops ih =>
    have ht := h t List.mem_cons_self
    rw [joinOperands_cons_cons, splitOnChar_append (fun c hc => not_comma_of_plainChar (ht.plain c hc)) rfl, List.map_cons,
      ht.trim_eq, map_trim_splitOnChar_cons_blank, ih fun v hv => h v (List.mem_cons_of_mem t hv)]

theorem trim_joinOperands : trim (joinOperands (t :: ops)) = joinOperands (t :: ops) :=
  trim_of_ends (fun _ hc => isBlank_of_plainChar (plainChar_head?_joinOperands h hc))
    (fun _ hc => isBlank_of_plainChar (plainChar_getLast?_joinOperands h hc))

theorem parseOperands_joinOperands : parseOperands (joinOperands (t :: ops)) = t :: ops := by
  have hne : joinOperands (t :: ops) ≠ [] := joinOperands_ne_nil (h t List.mem_cons_self) ops
  rw [parseOperands, if_neg (by simpa using hne), splitOnChar_joinOperands h]

end

/-! ## A command's line -/

theorem printLine_eq (i : Instr) : printLine i = mnemonicText i.mnemonic ++
    if operandTexts i = [] then [] else ' ' :: joinOperands (operandTexts i) := by
  unfold printLine
  split
  next hops => simp [hops]
  next hops => simp [if_neg hops, joinOperands]

/-- The line printed for a command is read as its mnemonic with its operands' texts. -/
theorem parseLine_printLine (i : Instr) :
    parseLine (printLine i) = (parseForm i.mnemonic (operandTexts i)).map fun i => [i] := by
  rw [printLine_eq]
  have hplain := operandTexts_plain i
  generalize operandTexts i = ops at *
  cases ops with
  | nil => exact parseLine_mnemonicText _ (by simp) (by simp)
  | cons t ops =>
    have hblank : ∀ c ∈ (' ' :: joinOperands (t :: ops)).head?, isBlank c = true := by simp [isBlank]
    have hcomment : ∀ c ∈ ' ' :: joinOperands (t :: ops), (c != ';') = true :=
      List.forall_mem_cons.mpr ⟨rfl, no_semicolon_joinOperands hplain⟩
    rw [if_neg (List.cons_ne_nil t ops), parseLine_mnemonicText _ hblank hcomment, trim_cons_blank,
      trim_joinOperands hplain, parseOperands_joinOperands hplain]

/-- CLR's mask is legal when it is below 16, as the assembler asks (R53, R58). -/
theorem clrMaskLegal_iff_lt {mask : BitVec 16} : clrMaskLegal mask = true ↔ mask.toNat < 16 := by
  have hlt := mask.isLt
  rw [clrMaskLegal, beq_iff_eq, ← BitVec.toNat_inj, BitVec.extractLsb'_toNat, Nat.shiftRight_eq_div_pow]
  simp only [BitVec.toNat_ofNat]
  omega

/-- A command is read from its mnemonic and its operands' texts. -/
theorem parseForm_operandTexts {i : Instr} (hi : i.wellFormed = true) :
    parseForm i.mnemonic (operandTexts i) = some i := by
  cases i with
  | clr mask =>
    simp [parseForm, Instr.mnemonic, operandTexts, parseBelow_toDigits (clrMaskLegal_iff_lt.mp hi)]
  | _ => simp [parseForm, Instr.mnemonic, operandTexts, parseReg_regText, parseImm16_toDigits, parseImm8_toDigits]

/-- Settles O9: the line is read as its mnemonic and its operands' texts, and these as the command. -/
theorem assemblerReadsPrintedLines : Obligations.AssemblerReadsPrintedLines := by
  intro i hi
  rw [parseLine_printLine, parseForm_operandTexts hi, Option.map_some]

end Sys2Proof.Machine

/-! PROOFS. The statements about the register commands and the arithmetic primitives (41_arith.md R70 to R81).

The idea: `mulValue` carries `multiply` to the product modulo the prime 65537 and `minv` to the power 65535, so Fermat's little
theorem makes `minv` the inverse; the laws about inverses then follow from `multiply` being commutative and associative with
identity 1, with no more arithmetic. -/

namespace Sys2Proof.Machine

/-! ## Addition (R70, R72) -/

theorem add_commutes (x y : Word) : add x y = add y x := by
  rw [add_eq, add_eq, BitVec.add_comm]

theorem add_associates (x y z : Word) : add (add x y) z = add x (add y z) := by
  simp only [add_eq, BitVec.add_assoc]

theorem add_zero_right (x : Word) : add x 0 = x := by
  rw [add_eq]
  exact BitVec.add_zero x

theorem add_ainv (x : Word) : add x (ainv x) = 0 := by
  rw [add_eq, ainv_eq]
  exact BitVec.add_right_neg x

theorem ainv_ainv (x : Word) : ainv (ainv x) = x := by
  rw [ainv_eq, ainv_eq, BitVec.neg_neg]

theorem add_add_ainv (x k : Word) : add (add x k) (ainv k) = x := by
  rw [add_associates, add_ainv, add_zero_right]

theorem add_ainv_add (x k : Word) : add (add x (ainv k)) k = x := by
  rw [add_associates, add_commutes (ainv k), add_ainv, add_zero_right]

/-! ## Multiplication (R71) -/

theorem mulValue_zero : mulValue 0 = 65536 := rfl

theorem mulValue_of_ne_zero {x : Word} (h : x ≠ 0) : mulValue x = x.toNat := if_neg h

/-- Folding 2^16 to 0 is what reduction modulo 2^16 does. -/
theorem mulFold_eq (p : Nat) : mulFold p = BitVec.ofNat 16 p := by
  unfold mulFold
  split
  next h => subst h; rfl
  next => rfl

theorem toNat_multiply (x y : Word) : (multiply x y).toNat = mulValue x * mulValue y % 65537 % 65536 := by
  rw [multiply, mulFold_eq, BitVec.toNat_ofNat]

theorem multiply_comm (x y : Word) : multiply x y = multiply y x := by
  rw [multiply, multiply, Nat.mul_comm]

theorem multiply_assoc (x y z : Word) : multiply (multiply x y) z = multiply x (multiply y z) := by
  apply mulValue_injective
  simp only [mulValue_multiply, Nat.mod_mul_mod, Nat.mul_mod_mod, Nat.mul_assoc]

theorem one_multiply (x : Word) : multiply 1 x = x := by
  have hle := mulValue_le x
  rw [multiply, mulValue_one, Nat.one_mul, Nat.mod_eq_of_lt (by omega), mulFold_mulValue]

theorem multiply_one (x : Word) : multiply x 1 = x := by
  rw [multiply_comm, one_multiply]

/-- 0 stands for 2^16, which is -1 modulo 2^16+1. -/
theorem toNat_zero_multiply {y : Word} (hy : 2 ≤ y.toNat) : (multiply 0 y).toNat = 65537 - y.toNat := by
  have hlt := y.isLt
  have hne : y ≠ 0 := by rintro rfl; exact absurd hy (by decide)
  have hsplit : 65536 * y.toNat = 65537 * (y.toNat - 1) + (65537 - y.toNat) := by omega
  rw [toNat_multiply, mulValue_zero, mulValue_of_ne_zero hne, hsplit, Nat.mul_add_mod,
    Nat.mod_eq_of_lt (a := 65537 - y.toNat) (by omega), Nat.mod_eq_of_lt (by omega)]

/-! ## The multiplicative inverse (R73) -/

theorem minv_zero : minv 0 = 0 := rfl

theorem minv_of_ne_zero {x : Word} (h : x ≠ 0) : minv x = mulFold (mulValue x ^ 65535 % 65537) := by
  rw [minv, if_neg h, inversePower_fifteen, mulValue_of_ne_zero h, mulFold_eq]

/-- Fermat's little theorem for the values of words, none of which the prime divides. -/
theorem mulValue_mul_pow (x : Word) : mulValue x * mulValue x ^ 65535 % 65537 = 1 := by
  have hpos := mulValue_pos x
  have hle := mulValue_le x
  have hcop : Nat.Coprime (mulValue x) 65537 :=
    (Nat.coprime_of_lt_prime (by omega) (by omega) prime_65537).symm
  have htotient : Nat.totient 65537 = 65535 + 1 := Nat.totient_prime prime_65537
  rw [← pow_succ', ← htotient]
  exact Nat.ModEq.pow_totient hcop

theorem mulValue_minv {x : Word} (h : x ≠ 0) : mulValue (minv x) = mulValue x ^ 65535 % 65537 := by
  have hlt : mulValue x ^ 65535 % 65537 < 65537 := Nat.mod_lt _ (by omega)
  have hpos : mulValue x ^ 65535 % 65537 ≠ 0 := by
    intro h0
    have hone := mulValue_mul_pow x
    rw [Nat.mul_mod, h0] at hone
    simp at hone
  rw [minv_of_ne_zero h, mulValue_mulFold _ (by omega) (by omega)]

theorem multiply_minv (x : Word) : multiply x (minv x) = 1 := by
  by_cases h : x = 0
  · subst h; decide
  · apply mulValue_injective
    rw [mulValue_multiply, mulValue_minv h, Nat.mul_mod_mod, mulValue_mul_pow, mulValue_one]

theorem multiply_multiply_minv (x k : Word) : multiply (multiply x k) (minv k) = x := by
  rw [multiply_assoc, multiply_minv, multiply_one]

theorem multiply_minv_multiply (x k : Word) : multiply (multiply x (minv k)) k = x := by
  rw [multiply_assoc, multiply_comm (minv k), multiply_minv, multiply_one]

/-- The inverse's inverse is what `x * minv x = 1` leaves of it. -/
theorem minv_minv (x : Word) : minv (minv x) = x := by
  have h := multiply_multiply_minv x (minv x)
  rwa [multiply_minv, one_multiply] at h

/-- No value but 0 has the inverse 0, so the power is never 2^16 and is written as it stands. -/
theorem toNat_minv (x : Word) : (minv x).toNat = if x = 0 then 0 else x.toNat ^ 65535 % 65537 := by
  split
  next h => subst h; rfl
  next h =>
    have hne : minv x ≠ 0 := fun h0 => h (by rw [← minv_minv x, h0, minv_zero])
    rw [← mulValue_of_ne_zero hne, mulValue_minv h, mulValue_of_ne_zero h]

/-! ## A command that writes one data register -/

section
variable {i : Instr} {s : State} {rd : Reg} {v : Word}

/-- The effect on every register, and the frame, of a command whose steps are one register write. -/
theorem exec_of_setX (h : commandSteps i s = .ok (s.setX rd v)) : ∃ t, exec i s = .next t ∧
    (∀ r, t.getX r = if r = rd then v else s.getX r) ∧ t = { s with x := t.x, err := 0#4 } :=
  ⟨(s.setX rd v).succeed, by rw [exec_eq_finish, h, finish_ok], fun r => Block.get_set s.x rd r v, rfl⟩

/-- The same with the registers as numbers, `n` the number written. -/
theorem exec_of_setX_toNat {n : Nat} (h : commandSteps i s = .ok (s.setX rd v)) (hv : v.toNat = n) :
    ∃ t, exec i s = .next t ∧ (∀ r, (t.getX r).toNat = if r = rd then n else (s.getX r).toNat) ∧
      t = { s with x := t.x, err := 0#4 } := by
  obtain ⟨t, ht, hx, hframe⟩ := exec_of_setX h
  exact ⟨t, ht, fun r => by rw [hx r, apply_ite BitVec.toNat, hv], hframe⟩

end

/-! ## The statements -/

/-- Settles O14: the power's square-and-multiply chain is the spec's power, which always fits in 16 bits. -/
theorem minvWritesFermatInverse : Obligations.MinvWritesFermatInverse :=
  fun _ rs1 s => exec_of_setX_toNat rfl (toNat_minv (s.getX rs1))

/-- Settles O15: the laws in order; the two distributive laws fail at (2, 1, 0) and at (1, 1, 1). -/
theorem arithmeticLaws : Obligations.ArithmeticLaws :=
  ⟨⟨add_commutes, add_associates, add_zero_right, add_ainv⟩,
    ainv_ainv,
    ⟨multiply_comm, multiply_assoc, one_multiply⟩,
    ⟨by decide, by decide, fun _ => toNat_zero_multiply⟩,
    multiply_minv,
    minv_minv,
    fun k x => ⟨⟨add_add_ainv x k, add_ainv_add x k⟩, ⟨multiply_multiply_minv x k, multiply_minv_multiply x k⟩,
      by rw [BitVec.xor_assoc, BitVec.xor_self, BitVec.xor_zero]⟩,
    ⟨2, 1, 0, by decide⟩, ⟨1, 1, 1, by decide⟩⟩

/-- Settles O10: LDI is one register write. -/
theorem ldiLoadsImmediate : Obligations.LdiLoadsImmediate :=
  fun _ _ _ => exec_of_setX rfl

/-- Settles O11: the value written is the sum of the sources as the state before holds them. -/
theorem addWritesSumModulo65536 : Obligations.AddWritesSumModulo65536 :=
  fun _ rs1 rs2 s => exec_of_setX_toNat rfl (toNat_add (s.getX rs1) (s.getX rs2))

/-- Settles O12: the zero-mapping of the operands is `mulValue`, and the fold is reduction modulo 2^16. -/
theorem mulWritesProductModulo65537 : Obligations.MulWritesProductModulo65537 :=
  fun _ rs1 rs2 s => exec_of_setX_toNat rfl (toNat_multiply (s.getX rs1) (s.getX rs2))

/-- Settles O13: the value written is the additive inverse of the source as the state before holds it. -/
theorem ainvWritesAdditiveInverse : Obligations.AinvWritesAdditiveInverse :=
  fun _ rs1 s => exec_of_setX_toNat rfl (toNat_ainv (s.getX rs1))

end Sys2Proof.Machine

/-! PROOFS. The statements about the key scheduler (42_keysched.md R91 to R97).

The idea of the closed form R94 (b): count bits from the top, as `bitFromTop` and `BitVec.getMsbD` both do. Then each function
of the scheduler moves a bit by an addition: a chunk starts `16 j` further down, `m` rotations start `25 m` further down
cyclically, and the register's bits are the key bytes' in order. -/

namespace Sys2Proof.Machine

/-! ## The register's bits are the key bytes' (R31) -/

/-- The bytes as one unsigned number, the first byte most significant (R31). -/
def bytesValue (bytes : List Byte) : Nat := bytes.foldl (fun n b => n * 256 + b.toNat) 0

theorem keyRegister_eq (bytes : List Byte) : keyRegister bytes = BitVec.ofNat 128 (bytesValue bytes) := rfl

theorem bytesValue_append_singleton (bytes : List Byte) (b : Byte) :
    bytesValue (bytes ++ [b]) = 2 ^ 8 * bytesValue bytes + b.toNat := by
  rw [bytesValue, List.foldl_concat, ← bytesValue, Nat.mul_comm]
  rfl

theorem bitFromTop_append_of_lt (bytes rest : List Byte) {p : Nat} (hp : p < 8 * bytes.length) :
    bitFromTop (bytes ++ rest) p = bitFromTop bytes p := by
  rw [bitFromTop, List.getElem?_append_left (by omega), bitFromTop]

theorem bitFromTop_append_singleton_of_le (bytes : List Byte) (b : Byte) {p : Nat} (hp : 8 * bytes.length ≤ p)
    (hlt : p < 8 * bytes.length + 8) : bitFromTop (bytes ++ [b]) p = b.getLsbD (7 - p % 8) := by
  rw [bitFromTop, show p / 8 = bytes.length by omega, List.getElem?_concat_length, Option.getD_some]

theorem testBit_bytesValue (bytes : List Byte) {p : Nat} (hp : p < 8 * bytes.length) :
    (bytesValue bytes).testBit (8 * bytes.length - 1 - p) = bitFromTop bytes p := by
  induction bytes using List.reverseRecOn generalizing p with
  | nil => simp at hp
  | append_singleton bytes b ih =>
    rw [List.length_append, List.length_singleton] at hp ⊢
    rw [bytesValue_append_singleton, Nat.testBit_two_pow_mul_add _ b.isLt]
    rcases Nat.lt_or_ge p (8 * bytes.length) with hold | hlast
    · rw [if_neg (by omega), bitFromTop_append_of_lt _ _ hold, ← ih hold]
      congr 1
      omega
    · rw [if_pos (by omega), bitFromTop_append_singleton_of_le _ _ hlast (by omega), BitVec.testBit_toNat]
      congr 1
      omega

theorem getMsbD_keyRegister {bytes : List Byte} (hlen : bytes.length = 16) {p : Nat} (hp : p < 128) :
    (keyRegister bytes).getMsbD p = bitFromTop bytes p := by
  rw [keyRegister_eq, BitVec.getMsbD_eq_getLsbD, BitVec.getLsbD_ofNat, decide_eq_true hp,
    decide_eq_true (by omega : 128 - 1 - p < 128), Bool.true_and, Bool.true_and,
    ← testBit_bytesValue bytes (by omega : p < 8 * bytes.length), hlen]

theorem length_padKey {kb : List Byte} (h : kb.length ≤ 16) : (padKey kb).length = 16 := by
  rw [padKey, List.length_append, List.length_replicate]
  omega

/-! ## Rotations and chunks (R92, R93) -/

/-- The sum of R92 has no carries: the part shifted up and the part wrapped around share no bit. -/
theorem rotl128_eq_rotateLeft (r : KeyRegister) {n : Nat} (hn : n < 128) : rotl128 r n = r.rotateLeft n := by
  apply BitVec.eq_of_toNat_eq
  have hsplit : 2 ^ 128 = 2 ^ n * 2 ^ (128 - n) := by rw [← Nat.pow_add, Nat.add_sub_cancel' hn.le]
  have hup : r.toNat * 2 ^ n % 2 ^ 128 = 2 ^ n * (r.toNat % 2 ^ (128 - n)) := by
    rw [Nat.mul_comm, hsplit, Nat.mul_mod_mul_left]
  have hwrap : r.toNat / 2 ^ (128 - n) < 2 ^ n :=
    Nat.div_lt_of_lt_mul (by rw [Nat.mul_comm, ← hsplit]; exact r.isLt)
  have hsum : r.toNat * 2 ^ n % 2 ^ 128 + r.toNat / 2 ^ (128 - n) = (r.rotateLeft n).toNat := by
    rw [BitVec.toNat_rotateLeft, Nat.mod_eq_of_lt hn, Nat.shiftLeft_eq, Nat.shiftRight_eq_div_pow, hup,
      Nat.two_pow_add_eq_or_of_lt hwrap]
  rw [rotl128, hsum, BitVec.toNat_ofNat, Nat.mod_eq_of_lt (BitVec.isLt _)]

theorem getMsbD_rotatedKey (kr : KeyRegister) (m : Nat) {p : Nat} (hp : p < 128) :
    (rotatedKey kr m).getMsbD p = kr.getMsbD ((25 * m + p) % 128) := by
  induction m generalizing p with
  | zero => rw [rotatedKey, Nat.mul_zero, Nat.zero_add, Nat.mod_eq_of_lt hp]
  | succ m ih =>
    rw [rotatedKey, rotl128_eq_rotateLeft _ (by decide), BitVec.getMsbD_rotateLeft, decide_eq_true hp, Bool.true_and,
      ih (Nat.mod_lt _ (by decide))]
    congr 1
    omega

theorem getMsbD_chunk (r : KeyRegister) {j b : Nat} (hj : j < 8) (hb : b < 16) :
    (chunk r j).getMsbD b = r.getMsbD (16 * j + b) := by
  rw [chunk, BitVec.getMsbD_extractLsb', decide_eq_true hb, decide_eq_true (by omega), Bool.true_and, Bool.true_and]
  congr 1
  omega

theorem scheduleList_eq (kr : KeyRegister) :
    scheduleList kr = (List.range 52).map fun i => chunk (rotatedKey kr (i / 8)) (i % 8) := rfl

/-- `K[8m + j] = chunk(R_m, j)` (R93). -/
theorem keyAt_schedule (kr : KeyRegister) {m j : Nat} (hj : j < 8) (h : 8 * m + j ≤ 51) :
    keyAt (schedule kr) (8 * m + j) = chunk (rotatedKey kr m) j := by
  have hentry : (schedule kr)[8 * m + j]? = (scheduleList kr)[8 * m + j]? := by simp [schedule]
  rw [keyAt, hentry, scheduleList_eq, List.getElem?_map, List.getElem?_range (by omega), Option.map_some, Option.getD_some,
    show (8 * m + j) / 8 = m by omega, show (8 * m + j) % 8 = j by omega]

/-- Settles O18: the chunk starts `16 j` bits below the top of the rotated key, which starts `25 m` bits below the key's. -/
theorem subkeyBitsArePaddedKeyBits : Obligations.SubkeyBitsArePaddedKeyBits := by
  intro kb m j b _ hlen hj hmj hb
  have hpos : (25 * m + (16 * j + b)) % 128 < 128 := Nat.mod_lt _ (by decide)
  have htop (w : Word) : w.getLsbD (15 - b) = w.getMsbD b := by
    rw [BitVec.getMsbD_eq_getLsbD, decide_eq_true hb, Bool.true_and]
  calc (keyAt (keySchedule kb) (8 * m + j)).getLsbD (15 - b)
      = (chunk (rotatedKey (keyRegister (padKey kb)) m) j).getMsbD b := by rw [keySchedule, keyAt_schedule _ hj hmj, htop]
    _ = (rotatedKey (keyRegister (padKey kb)) m).getMsbD (16 * j + b) := getMsbD_chunk _ hj hb
    _ = (keyRegister (padKey kb)).getMsbD ((25 * m + (16 * j + b)) % 128) := getMsbD_rotatedKey _ m (by omega)
    _ = bitFromTop (padKey kb) ((25 * m + (16 * j + b)) % 128) := getMsbD_keyRegister (length_padKey hlen) hpos
    _ = bitFromTop (padKey kb) ((25 * m + 16 * j + b) % 128) := by rw [Nat.add_assoc]

/-! ## The commands (R95, R96, R97) -/

/-- The operation that reports an error leaves the state R176 describes, with the error's number from R170. -/
theorem raise_eq_raised (s : State) (e : ErrorCode) : s.raise e = raised s e.code.toNat := by cases e <;> rfl

/-- A command whose steps end in an error leaves that error's state (R176). -/
theorem exec_of_error (i : Instr) {s : State} {e : ErrorCode} (h : commandSteps i s = .error e) :
    exec i s = .next (raised s e.code.toNat) := by
  rw [exec_eq_finish, h, finish_error, raise_eq_raised]

/-- A command whose steps go through leaves their state, with `ERR = 0` (R22). -/
theorem exec_of_ok (i : Instr) {s t : State} (h : commandSteps i s = .ok t) : exec i s = .next t.succeed := by
  rw [exec_eq_finish, h, finish_ok]

theorem keyAt_eq_getElem (k : Subkeys) {n : Nat} (hn : n < 52) : keyAt k n = k[n] := by
  rw [keyAt, Vector.getElem?_eq_getElem hn, Option.getD_some]

/-- Settles O16: by the two cases of KPUT's steps. -/
theorem kputAppendsKeyByte : Obligations.KputAppendsKeyByte :=
  fun imm _ => ⟨fun hfull => exec_of_error (.kput imm) (kputSteps_full imm hfull),
    fun hroom => exec_of_ok (.kput imm) (kputSteps_room imm hroom)⟩

/-- Settles O17: by the two cases of KEXP's steps; with a key at hand the bound on its length is not needed. -/
theorem kexpExpandsKey : Obligations.KexpExpandsKey :=
  fun _ => ⟨fun hempty => exec_of_error .kexp (kexpSteps_empty hempty),
    fun hkey _ => exec_of_ok .kexp (kexpSteps_key (Nat.one_le_iff_ne_zero.mp hkey))⟩

/-- Settles O19: two errors, and one register write. -/
theorem ldkReadsSubkey : Obligations.LdkReadsSubkey := by
  intro rd index s
  refine ⟨fun hinvalid => ?_, fun hvalid houtside => ?_, fun hvalid hinside => ?_⟩
  · exact exec_of_error (.ldk rd index) (ldkSteps_invalid rd index.toNat hinvalid)
  · exact exec_of_error (.ldk rd index) (ldkSteps_outside rd hvalid houtside)
  · have hlt : index.toNat < 52 := Nat.lt_succ_of_le hinside
    rw [keyAt_eq_getElem s.k hlt]
    exact exec_of_setX (ldkSteps_inside rd hvalid hlt)

end Sys2Proof.Machine

/-! PROOFS. The statements about encryption of a Block (43_round_encrypt.md R105 to R109).

The idea: the Blocks between the rounds are the partial folds of `encBlock` over the rounds' indices. One more index is one
more `applyRound`, and after all eight only the output transformation is left. The partial folds are stated for any windows of
subkeys, since decryption folds the same round over other windows (R116). -/

namespace Sys2Proof.Machine

/-! ## One round and the output transformation (R106, R107) -/

theorem isRound_applyRound (p : Block) (ks : RoundKeys) :
    IsRound p (applyRound p ks) ks.k0 ks.k1 ks.k2 ks.k3 ks.k4 ks.k5 :=
  ⟨_, _, _, _, _, _, _, _, _, _, rfl, rfl, rfl, rfl, rfl, rfl, rfl, rfl, rfl, rfl, rfl, rfl, rfl, rfl⟩

theorem isOutT_outT (p : Block) (ks : OutputKeys) : IsOutT p (outT p ks) ks.k0 ks.k1 ks.k2 ks.k3 := ⟨rfl, rfl, rfl, rfl⟩

/-! ## The windows of subkeys (R105) -/

theorem encKeys_eq_keyAt (k : Subkeys) (r : Fin 8) : encKeys k r =
    ⟨keyAt k (6 * r), keyAt k (6 * r + 1), keyAt k (6 * r + 2), keyAt k (6 * r + 3), keyAt k (6 * r + 4),
      keyAt k (6 * r + 5)⟩ := by
  simp (disch := omega) only [encKeys, keyAt_eq_getElem]

theorem encOutKeys_eq_keyAt (k : Subkeys) : encOutKeys k = ⟨keyAt k 48, keyAt k 49, keyAt k 50, keyAt k 51⟩ := rfl

/-! ## The Blocks between the rounds -/

theorem roundIndices_eq_finRange : roundIndices = List.finRange 8 := rfl

/-- The Block that the first `n` rounds make of `p`, round `r` under the window `keys r`. -/
def blockAfter (keys : Fin 8 → RoundKeys) (p : Block) (n : Nat) : Block :=
  (roundIndices.take n).foldl (fun q r => applyRound q (keys r)) p

section
variable (keys : Fin 8 → RoundKeys) (p : Block)

theorem blockAfter_zero : blockAfter keys p 0 = p := rfl

theorem blockAfter_succ (r : Fin 8) : blockAfter keys p (r + 1) = applyRound (blockAfter keys p r) (keys r) := by
  have htake : roundIndices.take (r + 1) = roundIndices.take r ++ [r] := by
    rw [roundIndices_eq_finRange, List.take_succ_eq_append_getElem (by simp), List.getElem_finRange, Fin.cast_mk]
  rw [blockAfter, htake, List.foldl_append, List.foldl_cons, List.foldl_nil, blockAfter]

theorem isRound_blockAfter (r : Fin 8) : IsRound (blockAfter keys p r) (blockAfter keys p (r + 1))
    (keys r).k0 (keys r).k1 (keys r).k2 (keys r).k3 (keys r).k4 (keys r).k5 :=
  blockAfter_succ keys p r ▸ isRound_applyRound (blockAfter keys p r) (keys r)

end

theorem encBlock_eq_outT_blockAfter (k : Subkeys) (p : Block) :
    encBlock k p = outT (blockAfter (encKeys k) p 8) (encOutKeys k) := rfl

theorem isRound_encKeys_keyAt (k : Subkeys) (p : Block) {r : Nat} (hr : r < 8) :
    IsRound (blockAfter (encKeys k) p r) (blockAfter (encKeys k) p (r + 1)) (keyAt k (6 * r)) (keyAt k (6 * r + 1))
      (keyAt k (6 * r + 2)) (keyAt k (6 * r + 3)) (keyAt k (6 * r + 4)) (keyAt k (6 * r + 5)) := by
  have hround := isRound_blockAfter (encKeys k) p ⟨r, hr⟩
  rwa [encKeys_eq_keyAt k ⟨r, hr⟩] at hround

theorem isOutT_encBlock_keyAt (k : Subkeys) (p : Block) :
    IsOutT (blockAfter (encKeys k) p 8) (encBlock k p) (keyAt k 48) (keyAt k 49) (keyAt k 50) (keyAt k 51) := by
  rw [encBlock_eq_outT_blockAfter, encOutKeys_eq_keyAt]
  exact isOutT_outT _ _

/-! ## The command (R109) -/

/-- Settles O22: the nine Blocks are the partial folds of the encryption, from no round to all eight. -/
theorem encbEncryptsBlock : Obligations.EncbEncryptsBlock := by
  intro s
  refine ⟨fun hinvalid => exec_of_error .encb (encbSteps_invalid hinvalid), fun hvalid => ?_⟩
  exact ⟨blockAfter (encKeys s.k) s.x, _, exec_of_ok .encb (encbSteps_valid hvalid), blockAfter_zero (encKeys s.k) s.x,
    fun _ => isRound_encKeys_keyAt s.k s.x, isOutT_encBlock_keyAt s.k s.x, rfl⟩

end Sys2Proof.Machine

/-! PROOFS. The statements about decryption of a Block (44_round_decrypt.md R116 to R123).

The idea, which is R122's: a round is an outer layer under four subkeys, the MA-box with its XORs under two, and the swap of the
two middle subblocks. The MA-box with its XORs is an involution, and the outer layer under the inverse subkeys undoes the outer
layer. So each decryption round undoes an outer layer of encryption and then the MA-box that came before it; the swap between
two encryption rounds is why the middle subkeys change places in all rounds but the first. -/

namespace Sys2Proof.Machine

/-! ## The parts of a round (R106, R107) -/

/-- The two middle subblocks exchanged, as at the end of a round. -/
def Block.swap (p : Block) : Block := ⟨p.a, p.c, p.b, p.d⟩

/-- The two middle subkeys of an outer layer exchanged (R118). -/
def OutputKeys.swap (ks : OutputKeys) : OutputKeys := ⟨ks.k0, ks.k2, ks.k1, ks.k3⟩

/-- The four inverses, each by the operation its subkey is used in (R117, R118, R119). -/
def OutputKeys.inverse (ks : OutputKeys) : OutputKeys := ⟨minv ks.k0, ainv ks.k1, ainv ks.k2, minv ks.k3⟩

/-- The subkeys of a round's four outer operations. -/
def RoundKeys.outer (ks : RoundKeys) : OutputKeys := ⟨ks.k0, ks.k1, ks.k2, ks.k3⟩

/-- The four outer operations of a round: `a`, `b`, `c`, `d` in R106's listing. -/
def outerLayer (p : Block) (ks : OutputKeys) : Block :=
  ⟨multiply p.a ks.k0, add p.b ks.k1, add p.c ks.k2, multiply p.d ks.k3⟩

/-- R106's `i` and `j` from the MA-box inputs `e` and `f`. -/
def maOutputs (k4 k5 e f : Word) : Word × Word :=
  (multiply (add f (multiply e k4)) k5, add (multiply e k4) (multiply (add f (multiply e k4)) k5))

/-- The MA-box and the XORs of a round, its subblocks still in place. -/
def maLayer (k4 k5 : Word) (p : Block) : Block :=
  let m := maOutputs k4 k5 (p.a ^^^ p.c) (p.b ^^^ p.d)
  ⟨p.a ^^^ m.1, p.b ^^^ m.2, p.c ^^^ m.1, p.d ^^^ m.2⟩

theorem applyRound_eq_layers (p : Block) (ks : RoundKeys) :
    applyRound p ks = (maLayer ks.k4 ks.k5 (outerLayer p ks.outer)).swap := rfl

theorem outT_eq_outerLayer_swap (p : Block) (ks : OutputKeys) : outT p ks = outerLayer p.swap ks := rfl

theorem Block.swap_swap (p : Block) : p.swap.swap = p := rfl

theorem outerLayer_swap_swap (p : Block) (ks : OutputKeys) : outerLayer p.swap ks.swap = (outerLayer p ks).swap := rfl

/-- The outer layer under the inverse subkeys undoes the outer layer (law 7 of R75). -/
theorem outerLayer_inverse (p : Block) (ks : OutputKeys) : outerLayer (outerLayer p ks) ks.inverse = p := by
  simp only [outerLayer, OutputKeys.inverse, multiply_multiply_minv, add_add_ainv]

theorem xor_xor_xor_same (x y m : Word) : (x ^^^ m) ^^^ (y ^^^ m) = x ^^^ y := by
  rw [BitVec.xor_assoc, BitVec.xor_comm y m, ← BitVec.xor_assoc m m y, BitVec.xor_self, BitVec.zero_xor]

/-- The XORs leave the MA-box inputs `e` and `f` as they were, so a second pass makes the same `i` and `j` (R110 (b)). -/
theorem maLayer_maLayer (k4 k5 : Word) (p : Block) : maLayer k4 k5 (maLayer k4 k5 p) = p := by
  simp only [maLayer, xor_xor_xor_same]
  simp only [BitVec.xor_assoc, BitVec.xor_self, BitVec.xor_zero]

/-- A round whose outer layer restores what an earlier round made, and that has its MA-box subkeys, leaves the earlier round's
outer layer, the middle subblocks exchanged. -/
theorem applyRound_of_outerLayer_eq {p q : Block} {ks ks' : RoundKeys} (h4 : ks'.k4 = ks.k4) (h5 : ks'.k5 = ks.k5)
    (h : outerLayer q ks'.outer = (applyRound p ks).swap) : applyRound q ks' = (outerLayer p ks.outer).swap := by
  rw [applyRound_eq_layers q, h, h4, h5, applyRound_eq_layers, Block.swap_swap, maLayer_maLayer]

/-! ## The decryption subkeys (R116 to R119) -/

theorem decKeys_zero (k : Subkeys) : decKeys k 0 = ⟨minv (keyAt k 48), ainv (keyAt k 49), ainv (keyAt k 50),
    minv (keyAt k 51), keyAt k 46, keyAt k 47⟩ := rfl

theorem decKeys_eq_keyAt (k : Subkeys) {t : Fin 8} (ht : t ≠ 0) : decKeys k t =
    ⟨minv (keyAt k (51 - 6 * t - 3)), ainv (keyAt k (51 - 6 * t - 1)), ainv (keyAt k (51 - 6 * t - 2)),
      minv (keyAt k (51 - 6 * t)), keyAt k (51 - 6 * t - 5), keyAt k (51 - 6 * t - 4)⟩ := by
  rw [decKeys, if_neg ht]
  simp (disch := omega) only [decPosition, keyAt_eq_getElem]

/-- The MA-box subkeys of decryption round `t` are those of encryption round `7 - t` (R116). -/
theorem decKeys_ma (k : Subkeys) (t : Fin 8) :
    (decKeys k t).k4 = (encKeys k t.rev).k4 ∧ (decKeys k t).k5 = (encKeys k t.rev).k5 := by
  fin_cases t <;> exact ⟨rfl, rfl⟩

theorem decKeys_outer_zero (k : Subkeys) : (decKeys k 0).outer = (encOutKeys k).inverse := rfl

theorem decKeys_outer_succ (k : Subkeys) (t : Fin 7) :
    (decKeys k t.succ).outer = (encKeys k t.castSucc.rev).outer.inverse.swap := by
  fin_cases t <;> rfl

theorem decOutKeys_eq_inverse (k : Subkeys) : decOutKeys k = (encKeys k 0).outer.inverse := rfl

/-! ## The inverse law (R122) -/

/-- Where R122's claim holds on entering decryption round `t`, the round leaves the outer layer of encryption round `7 - t`. -/
theorem blockAfter_decKeys_succ {k : Subkeys} {p : Block} {t : Fin 8}
    (h : outerLayer (blockAfter (decKeys k) (encBlock k p) t) (decKeys k t).outer =
      (blockAfter (encKeys k) p (t.rev + 1)).swap) :
    blockAfter (decKeys k) (encBlock k p) (t + 1) =
      (outerLayer (blockAfter (encKeys k) p t.rev) (encKeys k t.rev).outer).swap := by
  obtain ⟨h4, h5⟩ := decKeys_ma k t
  rw [blockAfter_succ] at h ⊢
  exact applyRound_of_outerLayer_eq h4 h5 h

/-- R122's claim: the Block entering decryption round `t`, after that round's outer layer, is the Block that encryption's
rounds up to round `7 - t` made, the middle subblocks exchanged. -/
theorem outerLayer_blockAfter_decKeys (k : Subkeys) (p : Block) (t : Fin 8) :
    outerLayer (blockAfter (decKeys k) (encBlock k p) t) (decKeys k t).outer =
      (blockAfter (encKeys k) p (t.rev + 1)).swap := by
  induction t using Fin.induction with
  | zero =>
    show outerLayer (encBlock k p) (decKeys k 0).outer = (blockAfter (encKeys k) p 8).swap
    rw [encBlock_eq_outT_blockAfter, outT_eq_outerLayer_swap, decKeys_outer_zero, outerLayer_inverse]
  | succ t ih =>
    have hentry : blockAfter (decKeys k) (encBlock k p) t.succ =
        (outerLayer (blockAfter (encKeys k) p t.castSucc.rev) (encKeys k t.castSucc.rev).outer).swap :=
      blockAfter_decKeys_succ ih
    have hrev : (t.succ.rev : ℕ) + 1 = t.castSucc.rev := by
      rw [Fin.rev_succ, Fin.rev_castSucc, Fin.val_castSucc, Fin.val_succ]
    rw [hrev, hentry, decKeys_outer_succ, outerLayer_swap_swap, outerLayer_inverse]

theorem decBlock_eq_outT_blockAfter (k : Subkeys) (p : Block) :
    decBlock k p = outT (blockAfter (decKeys k) p 8) (decOutKeys k) := rfl

theorem decBlock_encBlock (k : Subkeys) (p : Block) : decBlock k (encBlock k p) = p := by
  have hlast := blockAfter_decKeys_succ (outerLayer_blockAfter_decKeys k p (Fin.last 7))
  rw [Fin.val_last, Fin.rev_last, Fin.val_zero, blockAfter_zero] at hlast
  rw [decBlock_eq_outT_blockAfter, hlast, outT_eq_outerLayer_swap, Block.swap_swap, decOutKeys_eq_inverse, outerLayer_inverse]

/-- The Blocks are finitely many. -/
theorem finite_block : Finite Block :=
  Finite.of_injective (fun p => (p.a, p.b, p.c, p.d)) fun p q h => by cases p; cases q; simpa using h

/-- Encryption is one-to-one on finitely many Blocks, so every Block is the encryption of its decryption (R122). -/
theorem encBlock_decBlock (k : Subkeys) (p : Block) : encBlock k (decBlock k p) = p := by
  have hleft : Function.LeftInverse (decBlock k) (encBlock k) := decBlock_encBlock k
  have := finite_block
  exact hleft.rightInverse_of_surjective (Finite.surjective_of_injective hleft.injective) p

/-- Settles O24: the two equations of the inverse law. -/
theorem decryptionInvertsEncryption : Obligations.DecryptionInvertsEncryption :=
  fun k p => ⟨decBlock_encBlock k p, encBlock_decBlock k p⟩

/-! ## The decryption schedule (R123) -/

theorem toList_encKeys (k : Subkeys) (r : Fin 8) :
    (encKeys k r).toList = [0, 1, 2, 3, 4, 5].map fun j => keyAt k (6 * r + j) := by
  rw [encKeys_eq_keyAt]
  rfl

theorem encKeys_decSchedule (k : Subkeys) (t : Fin 8) : encKeys (decSchedule k) t = decKeys k t := by
  fin_cases t <;> rfl

theorem encOutKeys_decSchedule (k : Subkeys) : encOutKeys (decSchedule k) = decOutKeys k := rfl

theorem decBlock_eq_encBlock_decSchedule (k : Subkeys) (p : Block) : decBlock k p = encBlock (decSchedule k) p := by
  have hkeys : encKeys (decSchedule k) = decKeys k := funext (encKeys_decSchedule k)
  rw [encBlock_eq_outT_blockAfter, hkeys, encOutKeys_decSchedule, decBlock_eq_outT_blockAfter]

/-- Settles O26: encryption's windows of the decryption schedule are the decryption subkeys, so both sides run the
same rounds. -/
theorem decryptionIsEncryptionUnderInverseSchedule : Obligations.DecryptionIsEncryptionUnderInverseSchedule :=
  fun k => ⟨fun t => by rw [← toList_encKeys, encKeys_decSchedule], ⟨rfl, rfl, rfl, rfl⟩, decBlock_eq_encBlock_decSchedule k⟩

/-! ## The commands (R109, R121) -/

theorem exec_encb {s : State} (hvalid : s.kvalid = true) :
    exec .encb s = .next { s with x := encBlock s.k s.x, err := 0#4 } := exec_of_ok .encb (encbSteps_valid hvalid)

theorem exec_decb {s : State} (hvalid : s.kvalid = true) :
    exec .decb s = .next { s with x := decBlock s.k s.x, err := 0#4 } := exec_of_ok .decb (decbSteps_valid hvalid)

theorem isRound_decKeys_keyAt (k : Subkeys) (p : Block) {r : Nat} (hpos : 1 ≤ r) (hr : r < 8) :
    IsRound (blockAfter (decKeys k) p r) (blockAfter (decKeys k) p (r + 1)) (minv (keyAt k (51 - 6 * r - 3)))
      (ainv (keyAt k (51 - 6 * r - 1))) (ainv (keyAt k (51 - 6 * r - 2))) (minv (keyAt k (51 - 6 * r)))
      (keyAt k (51 - 6 * r - 5)) (keyAt k (51 - 6 * r - 4)) := by
  have hround := isRound_blockAfter (decKeys k) p ⟨r, hr⟩
  rwa [decKeys_eq_keyAt k (Fin.ne_of_val_ne (by exact Nat.ne_of_gt hpos))] at hround

/-- Settles O23: the nine Blocks are the partial folds of the decryption, from no round to all eight. -/
theorem decbDecryptsBlock : Obligations.DecbDecryptsBlock := by
  intro s
  refine ⟨fun hinvalid => exec_of_error .decb (decbSteps_invalid hinvalid), fun hvalid => ?_⟩
  exact ⟨blockAfter (decKeys s.k) s.x, _, exec_decb hvalid, blockAfter_zero (decKeys s.k) s.x,
    isRound_blockAfter (decKeys s.k) s.x 0, fun _ => isRound_decKeys_keyAt s.k s.x,
    isOutT_outT (blockAfter (decKeys s.k) s.x 8) (decOutKeys s.k), rfl⟩

/-- Settles O25: neither command writes the schedule, so the second works under the subkeys of the first (R122). -/
theorem encbAndDecbUndoEachOther : Obligations.EncbAndDecbUndoEachOther := by
  intro s hvalid
  refine ⟨⟨_, exec_encb hvalid, ?_⟩, ⟨_, exec_decb hvalid, ?_⟩⟩
  · rw [exec_decb (by exact hvalid), decBlock_encBlock]
  · rw [exec_encb (by exact hvalid), encBlock_decBlock]

end Sys2Proof.Machine

/-! PROOFS. The statements about the message codec (45_codec.md R130 to R144).

The idea for the hexadecimal text: read a text digit by digit. `parseHex_eq_some_iff` says that a text parses to a Block exactly
when its characters' values are the Block's 16 digits, most significant first; the round trips, LDHEX and STHEX follow from it and
from where the digits of each register stand. -/

namespace Sys2Proof.Machine

/-! ## Hexadecimal characters (R130) -/

theorem toNat_hexChar (v : Nibble) : (hexChar v).toNat = if v.toNat ≤ 9 then 0x30 + v.toNat else 0x37 + v.toNat := by
  have hv := v.isLt
  unfold hexChar
  split <;> rw [BitVec.toNat_ofNat] <;> omega

theorem map_toNat_hexVal (c : Byte) : (hexVal c).map BitVec.toNat =
    if 0x30 ≤ c.toNat ∧ c.toNat ≤ 0x39 then some (c.toNat - 0x30)
    else if 0x41 ≤ c.toNat ∧ c.toNat ≤ 0x46 then some (c.toNat - 0x37)
    else if 0x61 ≤ c.toNat ∧ c.toNat ≤ 0x66 then some (c.toNat - 0x57)
    else none := by
  unfold hexVal
  split_ifs
  case neg => rfl
  all_goals
    rw [Option.map_some, BitVec.toNat_ofNat]
    congr 1
    omega

/-- Settles O34: both tables as they are printed; no value passes its width. -/
theorem hexCharacterCodes : Obligations.HexCharacterCodes := ⟨toNat_hexChar, map_toNat_hexVal⟩

theorem hexVal_hexChar : ∀ v : Nibble, hexVal (hexChar v) = some v := by decide

/-- A hexadecimal character in upper case, and every other byte as it is (R133). -/
def upperCase (c : Byte) : Byte := if 0x61 ≤ c.toNat ∧ c.toNat ≤ 0x66 then c - 0x20#8 else c

theorem hexChar_of_hexVal {c : Byte} {v : Nibble} (h : hexVal c = some v) : hexChar v = upperCase c := by
  have hv := map_toNat_hexVal c
  rw [h, Option.map_some] at hv
  apply BitVec.eq_of_toNat_eq
  rw [toNat_hexChar, upperCase, apply_ite BitVec.toNat, BitVec.toNat_sub, BitVec.toNat_ofNat]
  split_ifs at hv with hdigit hupper hlower
  · have := Option.some.inj hv
    rw [if_pos (by omega), if_neg (by omega)]
    omega
  · have := Option.some.inj hv
    rw [if_neg (by omega), if_neg (by omega)]
    omega
  · have := Option.some.inj hv
    rw [if_neg (by omega), if_pos hlower]
    omega

/-! ## The digits of a subblock (R33) -/

/-- Hexadecimal digit `d` of a subblock, digit 0 most significant. -/
def hexDigit (v : Word) (d : Nat) : Nibble := v.extractLsb' (4 * (3 - d)) 4

/-- The four digits of a subblock, most significant first. -/
def wordDigits (v : Word) : List Nibble := [hexDigit v 0, hexDigit v 1, hexDigit v 2, hexDigit v 3]

/-- The subblock of four digits, as `parseWord` computes it. -/
def wordOfDigits (v0 v1 v2 v3 : Nibble) : Word :=
  BitVec.ofNat 16 (v0.toNat * 4096 + v1.toNat * 256 + v2.toNat * 16 + v3.toNat)

theorem toNat_hexDigit (v : Word) (d : Nat) : (hexDigit v d).toNat = v.toNat / 16 ^ (3 - d) % 16 := by
  rw [hexDigit, BitVec.extractLsb'_toNat, Nat.shiftRight_eq_div_pow, Nat.pow_mul]

theorem toNat_wordOfDigits (v0 v1 v2 v3 : Nibble) :
    (wordOfDigits v0 v1 v2 v3).toNat = v0.toNat * 4096 + v1.toNat * 256 + v2.toNat * 16 + v3.toNat := by
  rw [wordOfDigits, BitVec.toNat_ofNat]
  omega

theorem toNat_eq_hexDigits (v : Word) : v.toNat = (hexDigit v 0).toNat * 4096 + (hexDigit v 1).toNat * 256 +
    (hexDigit v 2).toNat * 16 + (hexDigit v 3).toNat := by
  have hv := v.isLt
  simp only [toNat_hexDigit]
  omega

theorem wordDigits_wordOfDigits (v0 v1 v2 v3 : Nibble) : wordDigits (wordOfDigits v0 v1 v2 v3) = [v0, v1, v2, v3] := by
  have digit {d : Nat} {v : Nibble} (h : (wordOfDigits v0 v1 v2 v3).toNat / 16 ^ (3 - d) % 16 = v.toNat) :
      hexDigit (wordOfDigits v0 v1 v2 v3) d = v := BitVec.eq_of_toNat_eq ((toNat_hexDigit _ d).trans h)
  have hsum := toNat_wordOfDigits v0 v1 v2 v3
  rw [wordDigits, digit (v := v0) (by omega), digit (v := v1) (by omega), digit (v := v2) (by omega),
    digit (v := v3) (by omega)]

theorem wordOfDigits_hexDigit (v : Word) :
    wordOfDigits (hexDigit v 0) (hexDigit v 1) (hexDigit v 2) (hexDigit v 3) = v :=
  BitVec.eq_of_toNat_eq ((toNat_wordOfDigits _ _ _ _).trans (toNat_eq_hexDigits v).symm)

theorem exists_wordDigits_eq {ds : List Nibble} (h : ds.length = 4) : ∃ v, wordDigits v = ds := by
  match ds, h with
  | [v0, v1, v2, v3], _ => exact ⟨_, wordDigits_wordOfDigits v0 v1 v2 v3⟩

/-- Four characters parse to the subblock whose digits are their values (R133). -/
theorem parseWord_eq_some_iff {t : List Byte} {v : Word} :
    parseWord t = some v ↔ t.map hexVal = (wordDigits v).map some := by
  constructor
  · intro h
    match t, h with
    | [c0, c1, c2, c3], h =>
      simp only [parseWord, bind, Option.bind_eq_some_iff, Option.some.injEq] at h
      obtain ⟨v0, h0, v1, h1, v2, h2, v3, h3, rfl⟩ := h
      rw [← wordOfDigits, wordDigits_wordOfDigits]
      simp only [List.map_cons, List.map_nil, h0, h1, h2, h3]
  · intro h
    have hlen : t.length = 4 := by simpa [wordDigits] using congrArg List.length h
    match t, hlen with
    | [c0, c1, c2, c3], _ =>
      simp only [wordDigits, List.map_cons, List.map_nil, List.cons.injEq, and_true] at h
      obtain ⟨h0, h1, h2, h3⟩ := h
      simp only [parseWord, h0, h1, h2, h3]
      exact congrArg some (wordOfDigits_hexDigit v)

/-! ## The digits of a Block (R33, R133) -/

/-- The 16 digits of a Block, those of A first. -/
def blockDigits (p : Block) : List Nibble := wordDigits p.a ++ wordDigits p.b ++ wordDigits p.c ++ wordDigits p.d

/-- Digit `d` of register `r` stands at place `4 r + d`. -/
theorem getElem?_blockDigits (p : Block) (r : Reg) {d : Nat} (hd : d < 4) :
    (blockDigits p)[4 * r.bits.toNat + d]? = some (hexDigit (p.get r) d) := by
  cases r <;> interval_cases d <;> rfl

theorem toHex_eq_map (p : Block) : toHex p = (blockDigits p).map hexChar := rfl

/-- A list cut after 4, 8 and 12 members, as `parseHex` cuts its text. -/
theorem append_quarters {α : Type} (t : List α) :
    t.take 4 ++ (t.drop 4).take 4 ++ (t.drop 8).take 4 ++ t.drop 12 = t := by
  rw [List.append_assoc, List.drop_take_append_drop t 8 4, List.append_assoc, List.drop_take_append_drop t 4 4,
    List.take_append_drop]

theorem exists_blockDigits_eq {ds : List Nibble} (h : ds.length = 16) : ∃ p, blockDigits p = ds := by
  obtain ⟨a, ha⟩ := exists_wordDigits_eq (ds := ds.take 4) (by simp [h])
  obtain ⟨b, hb⟩ := exists_wordDigits_eq (ds := (ds.drop 4).take 4) (by simp [h])
  obtain ⟨c, hc⟩ := exists_wordDigits_eq (ds := (ds.drop 8).take 4) (by simp [h])
  obtain ⟨d, hd⟩ := exists_wordDigits_eq (ds := ds.drop 12) (by simp [h])
  exact ⟨⟨a, b, c, d⟩, by rw [blockDigits, ha, hb, hc, hd, append_quarters]⟩

theorem parseHex_eq_some_iff_words {t : List Byte} {p : Block} : parseHex t = some p ↔
    parseWord (t.take 4) = some p.a ∧ parseWord ((t.drop 4).take 4) = some p.b ∧
    parseWord ((t.drop 8).take 4) = some p.c ∧ parseWord (t.drop 12) = some p.d := by
  simp only [parseHex, bind, Option.bind_eq_some_iff, Option.some.injEq]
  constructor
  · rintro ⟨a, ha, b, hb, c, hc, d, hd, rfl⟩
    exact ⟨ha, hb, hc, hd⟩
  · rintro ⟨ha, hb, hc, hd⟩
    exact ⟨p.a, ha, p.b, hb, p.c, hc, p.d, hd, rfl⟩

/-- A text parses to the Block whose digits are its characters' values (R133). -/
theorem parseHex_eq_some_iff {t : List Byte} {p : Block} :
    parseHex t = some p ↔ t.map hexVal = (blockDigits p).map some := by
  simp only [parseHex_eq_some_iff_words, parseWord_eq_some_iff]
  constructor
  · rintro ⟨ha, hb, hc, hd⟩
    rw [← append_quarters t]
    simp only [blockDigits, List.map_append, ha, hb, hc, hd]
  · intro h
    simp only [List.map_take, List.map_drop, h]
    exact ⟨rfl, rfl, rfl, rfl⟩

/-- A byte that is no hexadecimal character leaves the text without a Block. -/
theorem parseHex_eq_none {t : List Byte} (h : ∃ c ∈ t, hexVal c = none) : parseHex t = none := by
  obtain ⟨c, hc, hnone⟩ := h
  rw [Option.eq_none_iff_forall_ne_some]
  intro p hp
  have hmem : hexVal c ∈ (blockDigits p).map some := parseHex_eq_some_iff.mp hp ▸ List.mem_map_of_mem hc
  simp [hnone] at hmem

/-- Sixteen hexadecimal characters have a Block, which prints as the characters in upper case. -/
theorem exists_parseHex_eq_some {t : List Byte} (hlen : t.length = 16) (ht : ∀ c ∈ t, hexVal c ≠ none) :
    ∃ p, parseHex t = some p ∧ toHex p = t.map upperCase := by
  have hvalue {c : Byte} (hc : c ∈ t) : hexVal c = some ((hexVal c).getD 0) := by
    obtain ⟨v, hv⟩ := Option.ne_none_iff_exists'.mp (ht c hc)
    rw [hv, Option.getD_some]
  obtain ⟨p, hp⟩ := exists_blockDigits_eq (ds := t.map fun c => (hexVal c).getD 0) (by rw [List.length_map, hlen])
  refine ⟨p, parseHex_eq_some_iff.mpr ?_, ?_⟩
  · rw [hp, List.map_map]
    exact List.map_congr_left fun c hc => hvalue hc
  · rw [toHex_eq_map, hp, List.map_map]
    exact List.map_congr_left fun c hc => hexChar_of_hexVal (hvalue hc)

theorem parseHex_toHex (p : Block) : parseHex (toHex p) = some p := by
  rw [parseHex_eq_some_iff, toHex_eq_map, List.map_map]
  exact List.map_congr_left fun v _ => hexVal_hexChar v

/-- Settles O35: both trips by the digits of the Block. -/
theorem hexTextRoundTrips : Obligations.HexTextRoundTrips :=
  ⟨parseHex_toHex, fun _ => exists_parseHex_eq_some⟩

/-! ## The bytes of a Block (R32, R132) -/

theorem toNat_wordOfBytes (hi lo : Byte) : (wordOfBytes hi lo).toNat = 256 * hi.toNat + lo.toNat := by
  rw [wordOfBytes, BitVec.toNat_ofNat]
  omega

theorem toNat_highByte (v : Word) : (highByte v).toNat = v.toNat / 256 := by
  have hv := v.isLt
  rw [highByte, BitVec.extractLsb'_toNat, Nat.shiftRight_eq_div_pow]
  omega

theorem toNat_lowByte (v : Word) : (lowByte v).toNat = v.toNat % 256 := by
  rw [lowByte, BitVec.extractLsb'_toNat, Nat.shiftRight_zero]

theorem wordOfBytes_highByte_lowByte (v : Word) : wordOfBytes (highByte v) (lowByte v) = v := by
  apply BitVec.eq_of_toNat_eq
  rw [toNat_wordOfBytes, toNat_highByte, toNat_lowByte, Nat.div_add_mod]

theorem highByte_wordOfBytes (hi lo : Byte) : highByte (wordOfBytes hi lo) = hi := by
  apply BitVec.eq_of_toNat_eq
  rw [toNat_highByte, toNat_wordOfBytes]
  omega

theorem lowByte_wordOfBytes (hi lo : Byte) : lowByte (wordOfBytes hi lo) = lo := by
  apply BitVec.eq_of_toNat_eq
  rw [toNat_lowByte, toNat_wordOfBytes]
  omega

theorem getElem?_joinBlock_high (p : Block) (r : Reg) :
    (joinBlock p)[2 * r.bits.toNat]? = some (highByte (p.get r)) := by
  cases r <;> rfl

theorem getElem?_joinBlock_low (p : Block) (r : Reg) :
    (joinBlock p)[2 * r.bits.toNat + 1]? = some (lowByte (p.get r)) := by
  cases r <;> rfl

theorem splitBlock_get {buf : List Byte} {n : Nat} (h : 8 * n + 8 ≤ buf.length) (r : Reg) {hi lo : Byte}
    (hhi : buf[8 * n + 2 * r.bits.toNat]? = some hi) (hlo : buf[8 * n + 2 * r.bits.toNat + 1]? = some lo) :
    (splitBlock buf n h).get r = wordOfBytes hi lo := by
  obtain ⟨_, rfl⟩ := List.getElem?_eq_some_iff.mp hhi
  obtain ⟨_, rfl⟩ := List.getElem?_eq_some_iff.mp hlo
  cases r <;> rfl

theorem splitBlock_joinBlock (p : Block) (h : 8 * 0 + 8 ≤ (joinBlock p).length) : splitBlock (joinBlock p) 0 h = p := by
  refine Block.ext_get _ _ fun r => ?_
  rw [splitBlock_get h r (hi := highByte (p.get r)) (lo := lowByte (p.get r)), wordOfBytes_highByte_lowByte]
  · simpa using getElem?_joinBlock_high p r
  · simpa using getElem?_joinBlock_low p r

theorem joinBlock_splitBlock {buf : List Byte} {n : Nat} (h : 8 * n + 8 ≤ buf.length) :
    joinBlock (splitBlock buf n h) = (buf.drop (8 * n)).take 8 := by
  simp only [joinBlock, splitBlock, highByte_wordOfBytes, lowByte_wordOfBytes]
  refine List.ext_getElem (by simp; omega) fun i hi _ => ?_
  rw [List.getElem_take, List.getElem_drop]
  change i < 8 at hi
  interval_cases i <;> rfl

/-- Settles O36: a register's two bytes are the halves of its value. -/
theorem blockBytesRoundTrip : Obligations.BlockBytesRoundTrip :=
  ⟨splitBlock_joinBlock, fun _ _ => joinBlock_splitBlock⟩

/-! ## Padding and the sentinel (R131, R134, R135) -/

theorem padMsg_aligned {msg : List Byte} (hm : msg.length % 8 = 0) (rnd : List Byte) : padMsg msg rnd = msg := if_pos hm

theorem padMsg_unaligned {msg : List Byte} (hm : msg.length % 8 ≠ 0) (rnd : List Byte) :
    padMsg msg rnd = msg ++ sentinel :: rnd := by
  rw [padMsg, if_neg hm, List.append_assoc, List.singleton_append]

theorem prefix_padMsg (msg rnd : List Byte) : msg <+: padMsg msg rnd := by
  by_cases hm : msg.length % 8 = 0
  · rw [padMsg_aligned hm]
  · rw [padMsg_unaligned hm]
    exact List.prefix_append _ _

theorem unpad_sentinel_cons (rest : List Byte) : unpad (sentinel :: rest) = [] := rfl

theorem unpad_cons_of_ne {b : Byte} (hb : b ≠ sentinel) (rest : List Byte) : unpad (b :: rest) = b :: unpad rest :=
  List.takeWhile_cons_of_pos (bne_iff_ne.mpr hb)

theorem ne_sentinel_of_mem_unpad {buf : List Byte} {b : Byte} (h : b ∈ unpad buf) : b ≠ sentinel :=
  bne_iff_ne.mp (List.mem_takeWhile_imp (p := (· != sentinel)) h)

theorem unpad_append {msg : List Byte} (h : sentinel ∉ msg) (rest : List Byte) : unpad (msg ++ rest) = msg ++ unpad rest :=
  List.takeWhile_append_of_pos fun _ hb => bne_iff_ne.mpr (ne_of_mem_of_not_mem hb h)

/-- What stands where `Unpad` cuts is the sentinel (R134). -/
theorem getElem?_length_unpad {buf : List Byte} (h : (unpad buf).length < buf.length) :
    buf[(unpad buf).length]? = some sentinel := by
  induction buf with
  | nil => simp at h
  | cons b rest ih =>
    by_cases hb : b = sentinel
    · rw [hb, unpad_sentinel_cons]
      rfl
    · rw [unpad_cons_of_ne hb, List.length_cons] at h ⊢
      rw [List.getElem?_cons_succ]
      exact ih (Nat.lt_of_succ_lt_succ h)

theorem unpad_padMsg {msg : List Byte} (h : sentinel ∉ msg) (rnd : List Byte) : unpad (padMsg msg rnd) = msg := by
  by_cases hm : msg.length % 8 = 0
  · rw [padMsg_aligned hm]
    simpa [unpad] using unpad_append h []
  · rw [padMsg_unaligned hm, unpad_append h, unpad_sentinel_cons, List.append_nil]

/-- What stands before the first sentinel of a text that begins with the message. -/
theorem unpad_of_prefix {msg buf : List Byte} (hpre : msg <+: buf) {p : Nat} (hp : msg[p]? = some sentinel)
    (hfirst : ∀ q, q < p → msg[q]? ≠ some sentinel) : unpad buf = msg.take p := by
  obtain ⟨rest, rfl⟩ := hpre
  obtain ⟨hlt, hget⟩ := List.getElem?_eq_some_iff.mp hp
  have hnot : sentinel ∉ msg.take p := by
    rw [List.mem_take_iff_getElem]
    rintro ⟨q, hq, heq⟩
    exact hfirst q (by omega) (List.getElem?_eq_some_iff.mpr ⟨_, heq⟩)
  have hcut : msg = msg.take p ++ sentinel :: msg.drop (p + 1) := by
    rw [← hget, ← List.drop_eq_getElem_cons hlt, List.take_append_drop]
  conv_lhs => rw [hcut, List.append_assoc, unpad_append hnot, List.cons_append, unpad_sentinel_cons, List.append_nil]

/-- Settles O37: the padded message begins with the message, and what is appended begins with the sentinel. The filler's length
is not needed. -/
theorem unpadRecoversPaddedMessage : Obligations.UnpadRecoversPaddedMessage := by
  intro msg filler _
  refine ⟨fun h => unpad_padMsg (fun hmem => h _ hmem rfl) filler, fun p _ hp hfirst => ?_⟩
  exact unpad_of_prefix (prefix_padMsg msg filler) hp hfirst

/-! ## The commands that write buffers (R137, R138, R140, R142, R143) -/

/-- Settles O27: by the two cases of IPUT's steps. -/
theorem iputAppendsInputByte : Obligations.IputAppendsInputByte :=
  fun imm _ => ⟨fun hfull => exec_of_error (.iput imm) (iputSteps_full imm hfull),
    fun hroom => exec_of_ok (.iput imm) (iputSteps_room imm hroom)⟩

/-- Drawing gives what `Drawn` allows (R186, log 3). -/
theorem drawn_draw (s : State) (n : Nat) : Drawn s n (s.draw n).1 (s.draw n).2.rng := by
  rw [draw_state]
  exact ⟨draw_length s n, draw_prefix s n, rfl, rfl⟩

theorem padSteps_unaligned {s : State} (hm : s.ib.length % 8 ≠ 0) :
    padSteps s = .ok { s with ib := s.ib ++ sentinel :: (s.draw (7 - s.ib.length % 8)).1,
                              rng := (s.draw (7 - s.ib.length % 8)).2.rng } := by
  rw [padSteps_eq, padMsg_unaligned hm, fillerCount, if_neg hm]

/-- Settles O28: by the two cases of PAD's steps, the filler being what the draw gives. -/
theorem padAppendsSentinelAndFiller : Obligations.PadAppendsSentinelAndFiller :=
  fun s => ⟨fun hm => exec_of_ok .pad (padSteps_aligned hm),
    fun hm => ⟨_, _, drawn_draw s _, exec_of_ok .pad (padSteps_unaligned hm)⟩⟩

/-- Settles O30: the character at place `4 r + d` is that of digit `d` of register `r`. -/
theorem sthexAppendsHexText : Obligations.SthexAppendsHexText := by
  intro s
  refine ⟨fun hfull => exec_of_error .sthex (sthexSteps_full hfull), fun hroom => ?_⟩
  refine ⟨toHex s.x, exec_of_ok .sthex (sthexSteps_room hroom), rfl, fun r d hd => ?_⟩
  rw [toHex_eq_map, List.getElem?_map, getElem?_blockDigits s.x r hd, Option.map_some, Option.map_some, toNat_hexChar,
    toNat_hexDigit, State.getX_eq]

/-- Settles O32: the bytes at places `2 r` and `2 r + 1` are the halves of register `r`. -/
theorem stblkAppendsRawBytes : Obligations.StblkAppendsRawBytes := by
  intro s
  refine ⟨fun hfull => exec_of_error .stblk (stblkSteps_full hfull), fun hroom => ?_⟩
  refine ⟨joinBlock s.x, exec_of_ok .stblk (stblkSteps_room hroom), rfl, fun r => ⟨?_, ?_⟩⟩
  · rw [getElem?_joinBlock_high, Option.map_some, toNat_highByte, State.getX_eq]
  · rw [getElem?_joinBlock_low, Option.map_some, toNat_lowByte, State.getX_eq]

/-- Settles O33: the length of `Unpad(OB)` is the place of the first sentinel. -/
theorem unpadCutsAtFirstSentinel : Obligations.UnpadCutsAtFirstSentinel := by
  intro s
  have hpre : unpad s.ob <+: s.ob := unpad_prefix s.ob
  refine ⟨(unpad s.ob).length, exec_of_ok .unpad rfl, hpre.length_le, fun i hi => ?_, getElem?_length_unpad⟩
  have hbyte : s.readByte .OB i = some (unpad s.ob)[i] := List.prefix_iff_getElem?.mp hpre i hi
  rw [hbyte]
  exact fun h => ne_sentinel_of_mem_unpad (List.getElem_mem hi) (Option.some.inj h)

/-! ## The commands that load the data registers (R139, R141) -/

/-- Settles O29: register `r` is the byte pair at place `2 r` of the block. -/
theorem ldblkLoadsBlock : Obligations.LdblkLoadsBlock := by
  intro n s
  refine ⟨fun hout => exec_of_error (.ldblk n) (ldblkSteps_outside hout), fun hin => ?_⟩
  refine ⟨_, exec_of_ok (.ldblk n) (ldblkSteps_inside hin), fun r hi lo hhi hlo => ?_, rfl⟩
  have hget : (splitBlock s.ib n.toNat hin).get r = wordOfBytes hi lo := splitBlock_get hin r hhi hlo
  exact (congrArg BitVec.toNat hget).trans (toNat_wordOfBytes hi lo)

theorem getElem?_memRead (s : State) (sp : Space) (address : Nat) {n i : Nat} (hi : i < n) :
    (s.memRead sp address n)[i]? = s.readByte sp (address + i) := by
  rw [State.memRead, List.getElem?_take_of_lt hi, List.getElem?_drop, readByte_eq]

theorem length_memRead {s : State} {sp : Space} {address n : Nat} (h : address + n ≤ (s.buffer sp).length) :
    (s.memRead sp address n).length = n := by
  rw [State.memRead, List.length_take, List.length_drop]
  omega

/-- A group that parses has digit `d` of register `r` at its place `4 r + d`. -/
theorem hexVal_readByte_of_parseHex {s : State} {address : Nat} {p : Block}
    (hp : parseHex (s.memRead .IB address 16) = some p) (r : Reg) {d : Nat} (hd : d < 4) :
    (s.readByte .IB (address + 4 * r.bits.toNat + d)).bind hexVal = some (hexDigit (p.get r) d) := by
  have hplace : 4 * r.bits.toNat + d < 16 := by have := r.bits.isLt; omega
  have hdigit := congrArg (·[4 * r.bits.toNat + d]?) (parseHex_eq_some_iff.mp hp)
  simp only [List.getElem?_map, getElem?_memRead s .IB address hplace, getElem?_blockDigits p r hd, Option.map_some,
    ← Nat.add_assoc, Option.map_eq_some_iff] at hdigit
  obtain ⟨c, hc, hval⟩ := hdigit
  rw [hc, Option.bind_some, hval]

/-- Settles O31: the group's 16 characters have values exactly when it parses, and then register `r` has the digits at its place
`4 r`. -/
theorem ldhexParsesGroup : Obligations.LdhexParsesGroup := by
  intro n s
  refine ⟨fun hout => ?_, fun hin hbad => ?_, fun hin hgood => ?_⟩
  · exact exec_of_error (.ldhex n) (ldhexSteps_outside hout)
  · exact exec_of_error (.ldhex n) (ldhexSteps_bad hin (parseHex_eq_none hbad))
  · obtain ⟨p, hp, -⟩ := exists_parseHex_eq_some (length_memRead hin) hgood
    refine ⟨_, exec_of_ok (.ldhex n) (ldhexSteps_good hin hp), fun r v0 v1 v2 v3 h0 h1 h2 h3 => ?_, rfl⟩
    have digit {d : Nat} (hd : d < 4) {v : Nibble}
        (hv : (s.readByte .IB (16 * n.toNat + 4 * r.bits.toNat + d)).bind hexVal = some v) : hexDigit (p.get r) d = v :=
      Option.some.inj ((hexVal_readByte_of_parseHex hp r hd).symm.trans hv)
    have hsum := toNat_eq_hexDigits (p.get r)
    rwa [digit (d := 0) (by decide) h0, digit (by decide) h1, digit (by decide) h2, digit (by decide) h3] at hsum

/-! ## The key material (R144) -/

/-- `u` has the key bytes, the subkeys and `KVALID` of `s`. -/
def SameKeyMaterial (s u : State) : Prop := u.kb = s.kb ∧ u.k = s.k ∧ u.kvalid = s.kvalid

section
variable {s u : State}

theorem DiffersInRegisters.sameKeyMaterial (h : DiffersInRegisters s u) : SameKeyMaterial s u := by
  obtain ⟨p, rfl⟩ := h
  exact ⟨rfl, rfl, rfl⟩

theorem AppendsOutput.sameKeyMaterial (h : AppendsOutput s u) : SameKeyMaterial s u := by
  obtain ⟨b, -, rfl⟩ := h
  exact ⟨rfl, rfl, rfl⟩

theorem iputSteps_sameKeyMaterial {imm : Byte} (h : iputSteps imm s = .ok u) : SameKeyMaterial s u := by
  obtain rfl := Except.ok.inj (steps_guard_ok h)
  exact ⟨rfl, rfl, rfl⟩

theorem padSteps_sameKeyMaterial (h : padSteps s = .ok u) : SameKeyMaterial s u := by
  rw [padSteps_eq] at h
  cases h
  exact ⟨rfl, rfl, rfl⟩

theorem unpadSteps_sameKeyMaterial (h : unpadSteps s = .ok u) : SameKeyMaterial s u := by
  cases h
  exact ⟨rfl, rfl, rfl⟩

theorem codecSteps_sameKeyMaterial {i : Instr}
    (hi : i.mnemonic ∈ [.IPUT, .PAD, .LDBLK, .STHEX, .LDHEX, .STBLK, .UNPAD]) (h : commandSteps i s = .ok u) :
    SameKeyMaterial s u := by
  cases i with
  | iput imm => exact iputSteps_sameKeyMaterial h
  | pad => exact padSteps_sameKeyMaterial h
  | ldblk n => exact (ldblkSteps_ok h).sameKeyMaterial
  | sthex => exact (sthexSteps_ok h).sameKeyMaterial
  | ldhex n => exact (ldhexSteps_ok h).sameKeyMaterial
  | stblk => exact (stblkSteps_ok h).sameKeyMaterial
  | unpad => exact unpadSteps_sameKeyMaterial h
  | _ => simp [Instr.mnemonic] at hi

end

/-- Settles O39: an error changes no key material, and the steps of a codec command that go through keep it. -/
theorem codecLeavesKeyMaterial : Obligations.CodecLeavesKeyMaterial := by
  intro i s t hi hx
  rcases exec_cases hx with ⟨u, hu, rfl⟩ | ⟨e, -, rfl⟩
  · have hsame : SameKeyMaterial s u := codecSteps_sameKeyMaterial hi hu
    exact hsame
  · exact ⟨rfl, rfl, rfl⟩

end Sys2Proof.Machine

/-! PROOFS. The statements about the message commands and CLR (46_message.md R155 to R161).

The idea: the loops of ENCMSG and DECMSG do one thing, they pass Blocks in order through the data registers and write each to OB
(`State.emit`), so what the two commands leave is an equation with the list of those Blocks. Everything else is about lists: a
text of groups of one width determines its Blocks and is determined by them (`flatMap_eq_iff`), for 16 characters a Block as
for 8 bytes a Block. -/

namespace Sys2Proof.Machine

variable {s t u v : State}

/-! ## Lists of Blocks as text and as bytes (R132, R133, R136) -/

theorem length_toHex (p : Block) : (toHex p).length = 16 := rfl

theorem length_joinBlock (p : Block) : (joinBlock p).length = 8 := rfl

/-- A list of Blocks written out one after the other, each in `w` bytes, is the text whose group `n` is Block `n`. -/
theorem flatMap_eq_iff {f : Block → List Byte} {w : Nat} (hf : ∀ p, (f p).length = w) {blocks : List Block}
    {buf : List Byte} : blocks.flatMap f = buf ↔ buf.length = w * blocks.length ∧
      ∀ (n : Nat) (hn : n < blocks.length), (buf.drop (w * n)).take w = f blocks[n] := by
  induction blocks generalizing buf with
  | nil => simp [eq_comm (a := ([] : List Byte))]
  | cons p blocks ih =>
    rw [List.flatMap_cons]
    constructor
    · rintro rfl
      obtain ⟨hlen, hgroups⟩ := ih.mp rfl
      refine ⟨by rw [List.length_append, hf, hlen, List.length_cons, Nat.mul_succ, Nat.add_comm], fun n hn => ?_⟩
      cases n with
      | zero => exact List.take_left' (hf p)
      | succ n =>
        rw [Nat.mul_succ, Nat.add_comm, ← List.drop_drop, List.drop_left' (hf p)]
        exact hgroups n (Nat.lt_of_succ_lt_succ hn)
    · rintro ⟨hlen, hgroups⟩
      have hfirst : buf.take w = f p := hgroups 0 (Nat.succ_pos _)
      have hrest : blocks.flatMap f = buf.drop w := ih.mpr
        ⟨by rw [List.length_drop, hlen, List.length_cons, Nat.mul_succ, Nat.add_sub_cancel], fun n hn => by
          rw [List.drop_drop, Nat.add_comm, ← Nat.mul_succ]
          exact hgroups (n + 1) (Nat.succ_lt_succ hn)⟩
      rw [hrest, ← hfirst, List.take_append_drop]

section
variable {f : Block → List Byte} {w : Nat} (hf : ∀ p, (f p).length = w) (blocks : List Block)
include hf

theorem length_flatMap_block : (blocks.flatMap f).length = w * blocks.length := ((flatMap_eq_iff hf).mp rfl).1

theorem group_flatMap_block {n : Nat} (hn : n < blocks.length) :
    ((blocks.flatMap f).drop (w * n)).take w = f blocks[n] := ((flatMap_eq_iff hf).mp rfl).2 n hn

end

theorem length_splitBlocks (buf : List Byte) : (splitBlocks buf).length = buf.length / 8 := by
  rw [splitBlocks, List.length_map, List.length_finRange]

theorem getElem_splitBlocks {buf : List Byte} {n : Nat} (hn : n < (splitBlocks buf).length) :
    (splitBlocks buf)[n] = splitBlock buf n (by rw [length_splitBlocks] at hn; omega) := by
  simp [splitBlocks]

theorem flatMap_joinBlock_splitBlocks {buf : List Byte} (h : buf.length % 8 = 0) :
    (splitBlocks buf).flatMap joinBlock = buf :=
  (flatMap_eq_iff length_joinBlock).mpr ⟨by rw [length_splitBlocks]; omega, fun n hn => by
    rw [getElem_splitBlocks, joinBlock_splitBlock]⟩

theorem joinBlock_injective : Function.Injective joinBlock := by
  intro p q h
  rw [← splitBlock_joinBlock p (length_joinBlock p).ge, ← splitBlock_joinBlock q (length_joinBlock q).ge]
  simp only [h]

theorem splitBlocks_flatMap_joinBlock (blocks : List Block) : splitBlocks (blocks.flatMap joinBlock) = blocks := by
  have hlen : (splitBlocks (blocks.flatMap joinBlock)).length = blocks.length := by
    rw [length_splitBlocks, length_flatMap_block length_joinBlock]
    omega
  refine List.ext_getElem hlen fun n _ hn => joinBlock_injective ?_
  rw [getElem_splitBlocks, joinBlock_splitBlock, group_flatMap_block length_joinBlock blocks hn]

theorem splitBlocks_append {buf rest : List Byte} (h : buf.length % 8 = 0) (h' : rest.length % 8 = 0) :
    splitBlocks (buf ++ rest) = splitBlocks buf ++ splitBlocks rest := by
  rw [← splitBlocks_flatMap_joinBlock (splitBlocks buf ++ splitBlocks rest), List.flatMap_append,
    flatMap_joinBlock_splitBlocks h, flatMap_joinBlock_splitBlocks h']

theorem mapM_eq_some_iff {α β : Type} {f : α → Option β} {l : List α} {ys : List β} :
    l.mapM f = some ys ↔ l.map f = ys.map some := by
  induction l generalizing ys with
  | nil => simp [eq_comm (a := [])]
  | cons a l ih => cases ys <;> simp [List.mapM_cons, Option.bind_eq_some_iff, ih]

/-- A text has Blocks exactly when each of its whole groups parses, to the Block at its place. -/
theorem deserialize_eq_some_iff {chars : List Byte} {blocks : List Block} : deserialize chars = some blocks ↔
    blocks.length = chars.length / 16 ∧
      ∀ (n : Nat) (hn : n < blocks.length), parseHex ((chars.drop (16 * n)).take 16) = some blocks[n] := by
  rw [deserialize, mapM_eq_some_iff]
  constructor
  · intro h
    have hlen : blocks.length = chars.length / 16 := by simpa [eq_comm] using congrArg List.length h
    exact ⟨hlen, fun n hn => by simpa [← hlen, hn] using congrArg (·[n]?) h⟩
  · rintro ⟨hlen, hgroups⟩
    exact List.ext_getElem (by simp [hlen]) fun n _ hn => by simpa using hgroups n (by simpa using hn)

theorem exists_mapM_eq_some {α β : Type} {f : α → Option β} {l : List α} (h : ∀ a ∈ l, ∃ b, f a = some b) :
    ∃ ys, l.mapM f = some ys := by
  induction l with
  | nil => exact ⟨[], rfl⟩
  | cons a l ih =>
    obtain ⟨b, hb⟩ := h a List.mem_cons_self
    obtain ⟨ys, hys⟩ := ih fun c hc => h c (List.mem_cons_of_mem a hc)
    exact ⟨b :: ys, by rw [List.mapM_cons, hb, hys]; rfl⟩

theorem exists_deserialize_eq_some {chars : List Byte} (h : ∀ c ∈ chars, hexVal c ≠ none) :
    ∃ blocks, deserialize chars = some blocks := by
  refine exists_mapM_eq_some fun n hn => ?_
  have hn : n < chars.length / 16 := List.mem_range.mp hn
  obtain ⟨p, hp, -⟩ := exists_parseHex_eq_some (t := (chars.drop (16 * n)).take 16)
    (by rw [List.length_take, List.length_drop]; omega)
    fun c hc => h c (List.mem_of_mem_drop (List.mem_of_mem_take hc))
  exact ⟨p, hp⟩

theorem length_serialize (blocks : List Block) : (serialize blocks).length = 16 * blocks.length :=
  length_flatMap_block length_toHex blocks

theorem deserialize_serialize (blocks : List Block) : deserialize (serialize blocks) = some blocks := by
  refine deserialize_eq_some_iff.mpr ⟨by rw [length_serialize]; omega, fun n hn => ?_⟩
  rw [serialize, group_flatMap_block length_toHex blocks hn, parseHex_toHex]

theorem serialize_injective : Function.Injective serialize := fun p q h =>
  Option.some.inj (by rw [← deserialize_serialize p, ← deserialize_serialize q, h])

theorem serialize_append (p q : List Block) : serialize (p ++ q) = serialize p ++ serialize q := List.flatMap_append

/-- Every character of the text is the upper-case character of a digit (R130, R133). -/
theorem mem_serialize {blocks : List Block} {c : Byte} (h : c ∈ serialize blocks) : ∃ v, c = hexChar v := by
  obtain ⟨p, -, hc⟩ := List.mem_flatMap.mp h
  rw [toHex_eq_map] at hc
  obtain ⟨v, -, rfl⟩ := List.mem_map.mp hc
  exact ⟨v, rfl⟩

/-! ## CLR (R161) -/

/-- Settles O53: bit by bit, and with the mask 15 every piece that reset sets but `ERRLOG`. -/
theorem clrClearsMaskedParts : Obligations.ClrClearsMaskedParts :=
  ⟨fun mask s _ => exec_of_ok (.clr mask) (clrSteps_eq mask s), fun s => exec_of_ok (.clr 15) (clrSteps_eq 15 s)⟩

/-! ## ENCMSG's checks (R156, R178) -/

/-- What ENCMSG checks: a key, a message, and room for its ciphertext. -/
structure EncmsgReady (s : State) : Prop where
  key : s.kb.length ≠ 0
  message : s.ib.length ≠ 0
  room : 2 * paddedLength s.ib.length ≤ s.cap

theorem paddedLength_eq (n : Nat) : paddedLength n = 8 * ((n + 7) / 8) := by
  unfold paddedLength
  split <;> omega

theorem encmsgSteps_noKey (hk : s.kb.length = 0) : encmsgSteps s = .error .missingKey := if_pos hk

theorem encmsgSteps_noMessage (hk : s.kb.length ≠ 0) (hi : s.ib.length = 0) :
    encmsgSteps s = .error .emptyPlaintext := (if_neg hk).trans (if_pos hi)

theorem encmsgSteps_noRoom (hk : s.kb.length ≠ 0) (hi : s.ib.length ≠ 0) (hc : s.cap < 2 * paddedLength s.ib.length) :
    encmsgSteps s = .error .bufferOverflow := (if_neg hk).trans ((if_neg hi).trans (if_pos hc))

theorem encmsgSteps_ready (h : EncmsgReady s) : encmsgSteps s = encmsgWork s :=
  (if_neg h.key).trans ((if_neg h.message).trans (if_neg (Nat.not_lt.mpr h.room)))

theorem encmsgReady_of_ok (h : encmsgSteps s = .ok u) : EncmsgReady s := by
  have hk : s.kb.length ≠ 0 := fun hk => nomatch (encmsgSteps_noKey hk).symm.trans h
  have hi : s.ib.length ≠ 0 := fun hi => nomatch (encmsgSteps_noMessage hk hi).symm.trans h
  exact ⟨hk, hi, Nat.le_of_not_lt fun hc => nomatch (encmsgSteps_noRoom hk hi hc).symm.trans h⟩

theorem encmsgReady_of_bounds (hk : 1 ≤ s.kb.length) (hi : 1 ≤ s.ib.length)
    (hroom : 2 * (8 * ((s.ib.length + 7) / 8)) ≤ s.cap) : EncmsgReady s :=
  ⟨Nat.one_le_iff_ne_zero.mp hk, Nat.one_le_iff_ne_zero.mp hi, paddedLength_eq s.ib.length ▸ hroom⟩

/-- Settles O41: the three errors of ENCMSG's steps. -/
theorem encmsgChecksInOrder : Obligations.EncmsgChecksInOrder := by
  intro s
  refine ⟨fun hk => exec_of_error .encmsg (encmsgSteps_noKey hk),
    fun hk hi => exec_of_error .encmsg (encmsgSteps_noMessage hk hi), fun hk hi hc => ?_⟩
  rw [← paddedLength_eq] at hc
  exact exec_of_error .encmsg (encmsgSteps_noRoom hk hi hc)

/-! ## DECMSG's checks (R158, R178) -/

/-- What DECMSG checks: a key, a text, and that the text is whole groups of hexadecimal characters. -/
structure DecmsgReady (s : State) : Prop where
  key : s.kb.length ≠ 0
  text : s.ib.length ≠ 0
  whole : s.ib.length % 16 = 0
  hex : ∀ c ∈ s.ib, hexVal c ≠ none

theorem allHex_iff {chars : List Byte} : allHex chars = true ↔ ∀ c ∈ chars, hexVal c ≠ none := by
  simp only [allHex, List.all_eq_true, Option.isSome_iff_ne_none]

theorem decmsgSteps_noKey (hk : s.kb.length = 0) : decmsgSteps s = .error .missingKey := if_pos hk

theorem decmsgSteps_noText (hk : s.kb.length ≠ 0) (hi : s.ib.length = 0) :
    decmsgSteps s = .error .emptyCiphertext := (if_neg hk).trans (if_pos hi)

theorem decmsgSteps_bad (hk : s.kb.length ≠ 0) (hi : s.ib.length ≠ 0)
    (hbad : s.ib.length % 16 ≠ 0 ∨ allHex s.ib = false) : decmsgSteps s = .error .invalidCiphertext :=
  (if_neg hk).trans ((if_neg hi).trans (if_pos hbad))

theorem decmsgSteps_ready (h : DecmsgReady s) : decmsgSteps s = decmsgWork s :=
  (if_neg h.key).trans ((if_neg h.text).trans (if_neg (by simp [h.whole, allHex_iff.mpr h.hex])))

theorem decmsgReady_of_ok (h : decmsgSteps s = .ok u) : DecmsgReady s := by
  have hk : s.kb.length ≠ 0 := fun hk => nomatch (decmsgSteps_noKey hk).symm.trans h
  have hi : s.ib.length ≠ 0 := fun hi => nomatch (decmsgSteps_noText hk hi).symm.trans h
  have hgood : ¬ (s.ib.length % 16 ≠ 0 ∨ allHex s.ib = false) :=
    fun hbad => nomatch (decmsgSteps_bad hk hi hbad).symm.trans h
  rw [not_or, not_not, Bool.not_eq_false, allHex_iff] at hgood
  obtain ⟨hwhole, hhex⟩ := hgood
  exact ⟨hk, hi, hwhole, hhex⟩

theorem decmsgReady_of_bounds (hk : 1 ≤ s.kb.length) (hi : 1 ≤ s.ib.length) (hwhole : s.ib.length % 16 = 0)
    (hhex : ∀ c ∈ s.ib, hexVal c ≠ none) : DecmsgReady s :=
  ⟨Nat.one_le_iff_ne_zero.mp hk, Nat.one_le_iff_ne_zero.mp hi, hwhole, hhex⟩

/-- Settles O47: the three errors of DECMSG's steps. -/
theorem decmsgChecksInOrder : Obligations.DecmsgChecksInOrder := by
  intro s
  refine ⟨fun hk => exec_of_error .decmsg (decmsgSteps_noKey hk),
    fun hk hi => exec_of_error .decmsg (decmsgSteps_noText hk hi), fun hk hi hbad => ?_⟩
  refine exec_of_error .decmsg (decmsgSteps_bad hk hi (hbad.imp_right fun ⟨c, hc, hnone⟩ => ?_))
  exact Bool.eq_false_iff.mpr fun hall => allHex_iff.mp hall c hc hnone

/-! ## The loop over blocks -/

/-- `s` after the Blocks have passed through the data registers in order, each written to OB as `f` writes it. -/
def State.emit (s : State) (f : Block → List Byte) (blocks : List Block) : State :=
  { s with x := blocks.getLast?.getD s.x, ob := s.ob ++ blocks.flatMap f }

/-- Turn `n` of a loop from `s` leaves Block `n` in the data registers and writes it to OB. -/
def TurnsEmit (body : Nat → State → Steps) (s : State) (f : Block → List Byte) (blocks : List Block) : Prop :=
  ∀ n < blocks.length, body n (s.emit f (blocks.take n)) = .ok (s.emit f (blocks.take (n + 1)))

section
variable {body : Nat → State → Steps} {f : Block → List Byte} {blocks : List Block}

theorem emit_nil (s : State) (f : Block → List Byte) : s.emit f [] = s := by
  simp [State.emit]

theorem emit_take_succ {n : Nat} (hn : n < blocks.length) : s.emit f (blocks.take (n + 1)) =
    { s.emit f (blocks.take n) with x := blocks[n], ob := (s.emit f (blocks.take n)).ob ++ f blocks[n] } := by
  rw [List.take_succ_eq_append_getElem hn, State.emit, State.emit, List.getLast?_concat, List.flatMap_append,
    ← List.append_assoc, List.flatMap_singleton, Option.getD_some]

/-- A loop that emits at least one Block leaves the last of them in the data registers. -/
theorem emit_eq {last : Block} (h : blocks.getLast? = some last) (s : State) :
    s.emit f blocks = { s with x := last, ob := s.ob ++ blocks.flatMap f } := by
  rw [State.emit, h, Option.getD_some]

theorem exists_getLast?_eq_some (h : 0 < blocks.length) : ∃ last, blocks.getLast? = some last :=
  ⟨_, List.getLast?_eq_some_getLast (List.ne_nil_of_length_pos h)⟩

theorem length_emit_ob {w : Nat} (hf : ∀ p, (f p).length = w) (s : State) (blocks : List Block) :
    (s.emit f blocks).ob.length = s.ob.length + w * blocks.length := by
  rw [State.emit, List.length_append, length_flatMap_block hf]

theorem forBlocks_emit (h : TurnsEmit body s f blocks) : forBlocks body blocks.length s = .ok (s.emit f blocks) := by
  obtain ⟨t, ht, rfl⟩ := forBlocks_invariant (fun n u => u = s.emit f (blocks.take n)) (emit_nil s f).symm
    fun n u hn hu => ⟨_, hu ▸ h n hn, rfl⟩
  rw [ht, List.take_length]

end

/-- ENCMSG's loop, on a state with a schedule and room for the text of its Blocks. -/
theorem encBlockSteps_turnsEmit (hk : s.kvalid = true) (hroom : s.ob.length + 16 * (s.ib.length / 8) ≤ s.cap) :
    TurnsEmit encBlockSteps s toHex ((splitBlocks s.ib).map (encBlock s.k)) := by
  intro n hn
  have hlen : n < s.ib.length / 8 := by simpa [length_splitBlocks] using hn
  rw [emit_take_succ hn, List.getElem_map, getElem_splitBlocks]
  refine encBlockSteps_ok (by show 8 * n + 8 ≤ s.ib.length; omega) hk ?_
  rw [length_emit_ob length_toHex, List.length_take_of_le hn.le]
  show _ ≤ s.cap
  omega

/-- DECMSG's loop, on a state with a schedule, a text with Blocks, and room for their bytes. -/
theorem decBlockSteps_turnsEmit {blocks : List Block} (hk : s.kvalid = true) (hblocks : deserialize s.ib = some blocks)
    (hroom : s.ob.length + 8 * blocks.length ≤ s.cap) :
    TurnsEmit decBlockSteps s joinBlock (blocks.map (decBlock s.k)) := by
  obtain ⟨hlen, hgroups⟩ := deserialize_eq_some_iff.mp hblocks
  intro n hn
  have hn' : n < blocks.length := by simpa using hn
  rw [emit_take_succ hn, List.getElem_map]
  refine decBlockSteps_ok (by show 16 * n + 16 ≤ s.ib.length; omega) (hgroups n hn') hk ?_
  rw [length_emit_ob length_joinBlock, List.length_take_of_le hn.le]
  show _ ≤ s.cap
  omega

/-! ## What ENCMSG leaves (R156) -/

/-- The Blocks ENCMSG makes of a message under a key, the filler given (R156). -/
def cipherBlocks (kb msg filler : List Byte) : List Block := (encodeBlocks msg filler).map (encBlock (keySchedule kb))

/-- The bytes PAD draws in a state (R138). -/
def State.filler (s : State) : List Byte := (s.draw (fillerCount s.ib.length)).1

/-- The random source after PAD's draw (R186). -/
def State.rngAfterPad (s : State) : Rng := (s.draw (fillerCount s.ib.length)).2.rng

theorem length_filler (s : State) : s.filler.length = fillerCount s.ib.length := draw_length s _

theorem length_padMsg {msg rnd : List Byte} (h : rnd.length = fillerCount msg.length) :
    (padMsg msg rnd).length = paddedLength msg.length := by
  by_cases hm : msg.length % 8 = 0
  · rw [padMsg_aligned hm, paddedLength, if_pos hm]
  · rw [fillerCount, if_neg hm] at h
    rw [padMsg_unaligned hm, List.length_append, List.length_cons, h, paddedLength, if_neg hm]
    omega

theorem length_cipherBlocks {kb msg filler : List Byte} (h : filler.length = fillerCount msg.length) :
    (cipherBlocks kb msg filler).length = (msg.length + 7) / 8 := by
  rw [cipherBlocks, encodeBlocks, List.length_map, length_splitBlocks, length_padMsg h, paddedLength_eq]
  omega

/-- PAD on a state with the input buffer and the random source of `s`. -/
theorem padSteps_congr (hib : t.ib = s.ib) (hrng : t.rng = s.rng) :
    padSteps t = .ok { t with ib := padMsg s.ib s.filler, rng := s.rngAfterPad } := by
  rw [padSteps_eq, draw_congr hrng, draw_state, State.filler, State.rngAfterPad, draw_state, hib, hrng]

/-- The state in which ENCMSG's loop begins: the key expanded, the message padded, OB empty. -/
def State.encmsgStart (s : State) : State :=
  { s with k := keySchedule s.kb, kvalid := true, ib := padMsg s.ib s.filler, rng := s.rngAfterPad, ob := [] }

/-- ENCMSG's check of the padded length is what its loop needs. -/
theorem encmsgStart_room (h : EncmsgReady s) :
    s.encmsgStart.ob.length + 16 * (s.encmsgStart.ib.length / 8) ≤ s.encmsgStart.cap := by
  have hroom := h.room
  have hpad := length_padMsg (length_filler s)
  show 0 + 16 * ((padMsg s.ib s.filler).length / 8) ≤ s.cap
  omega

theorem encmsgWork_ok {s1 s2 s3 : State} (h1 : kexpSteps s = .ok s1) (h2 : padSteps s1 = .ok s2)
    (h3 : forBlocks encBlockSteps (paddedLength s.ib.length / 8) (s2.memTrunc .OB 0) = .ok s3) :
    encmsgWork s = .ok s3.consume := by
  simp only [encmsgWork, h1, h2, h3, bind, Except.bind]

theorem encmsgSteps_eq (h : EncmsgReady s) :
    encmsgSteps s = .ok (s.encmsgStart.emit toHex (cipherBlocks s.kb s.ib s.filler)).consume := by
  have hcount : paddedLength s.ib.length / 8 = (cipherBlocks s.kb s.ib s.filler).length := by
    rw [length_cipherBlocks (length_filler s), paddedLength_eq]
    omega
  rw [encmsgSteps_ready h]
  exact encmsgWork_ok (kexpSteps_key h.key) (padSteps_congr (s := s) rfl rfl)
    (hcount ▸ forBlocks_emit (encBlockSteps_turnsEmit (s := s.encmsgStart) rfl (encmsgStart_room h)))

theorem exec_encmsg (h : EncmsgReady s) :
    exec .encmsg s = .next (s.encmsgStart.emit toHex (cipherBlocks s.kb s.ib s.filler)).consume.succeed :=
  exec_of_ok .encmsg (encmsgSteps_eq h)

/-- A command that reports no error went through its steps (R176). -/
theorem commandSteps_ok_of_err {i : Instr} (h : exec i s = .next t) (ht : t.err = 0#4) : ∃ u, commandSteps i s = .ok u := by
  rcases exec_cases h with ⟨u, hu, -⟩ | ⟨e, -, rfl⟩
  · exact ⟨u, hu⟩
  · exact absurd ht (code_ne_zero e)

/-- An ENCMSG that reports no error passed its checks, and OB is the text of its Blocks. -/
theorem encmsg_ok (h : exec .encmsg s = .next t) (ht : t.err = 0#4) :
    EncmsgReady s ∧ t.ob = serialize (cipherBlocks s.kb s.ib s.filler) := by
  obtain ⟨u, hu⟩ := commandSteps_ok_of_err h ht
  have hready : EncmsgReady s := encmsgReady_of_ok hu
  cases (exec_encmsg hready).symm.trans h
  exact ⟨hready, rfl⟩

/-- Settles O42: the loop emits the encrypted Blocks of the padded message, and `consume` drops key and message. -/
theorem encmsgEncryptsMessage : Obligations.EncmsgEncryptsMessage := by
  intro s hk _ hi hroom
  have hlen := length_cipherBlocks (kb := s.kb) (length_filler s)
  obtain ⟨last, hlast⟩ := exists_getLast?_eq_some (blocks := cipherBlocks s.kb s.ib s.filler) (by omega)
  refine ⟨s.filler, s.rngAfterPad, last, drawn_draw s _, hlast, ?_⟩
  rw [exec_encmsg (encmsgReady_of_bounds hk hi hroom), emit_eq hlast]
  rfl

/-! ## ENCMSG's output (R157) -/

/-- A character of the engine's text is an upper-case hexadecimal character (R130). -/
theorem hexChar_range (v : Nibble) :
    (0x30 ≤ (hexChar v).toNat ∧ (hexChar v).toNat ≤ 0x39) ∨ (0x41 ≤ (hexChar v).toNat ∧ (hexChar v).toNat ≤ 0x46) := by
  have hv := v.isLt
  rw [toNat_hexChar]
  split <;> omega

/-- Settles O43: 16 characters a Block, each the character of a digit. -/
theorem encmsgOutputIsUppercaseHex : Obligations.EncmsgOutputIsUppercaseHex := by
  intro s t hx ht
  obtain ⟨-, hob⟩ := encmsg_ok hx ht
  have hlen : t.ob.length = 16 * ((s.ib.length + 7) / 8) := by
    rw [hob, length_serialize, length_cipherBlocks (length_filler s)]
  refine ⟨by omega, hlen, fun c hc => ?_⟩
  obtain ⟨v, rfl⟩ := mem_serialize (hob ▸ hc)
  exact hexChar_range v

theorem encBlock_injective (k : Subkeys) : Function.Injective (encBlock k) :=
  Function.LeftInverse.injective (decBlock_encBlock k)

/-- The text of a padded message's encrypted Blocks determines the padded message. -/
theorem padMsg_eq_of_serialize_eq {kb msg filler filler' : List Byte} (hf : filler.length = fillerCount msg.length)
    (hf' : filler'.length = fillerCount msg.length)
    (h : serialize (cipherBlocks kb msg filler) = serialize (cipherBlocks kb msg filler')) :
    padMsg msg filler = padMsg msg filler' := by
  have hblocks : splitBlocks (padMsg msg filler) = splitBlocks (padMsg msg filler') :=
    List.map_injective_iff.mpr (encBlock_injective (keySchedule kb)) (serialize_injective h)
  rw [← flatMap_joinBlock_splitBlocks (length_padMsg_mod hf), hblocks, flatMap_joinBlock_splitBlocks (length_padMsg_mod hf')]

theorem filler_eq_of_serialize_eq {kb msg filler filler' : List Byte} (hm : msg.length % 8 ≠ 0)
    (hf : filler.length = fillerCount msg.length) (hf' : filler'.length = fillerCount msg.length)
    (h : serialize (cipherBlocks kb msg filler) = serialize (cipherBlocks kb msg filler')) : filler = filler' := by
  have hpad := padMsg_eq_of_serialize_eq hf hf' h
  rw [padMsg_unaligned hm, padMsg_unaligned hm, List.append_cancel_left_eq, List.cons.injEq] at hpad
  exact hpad.2

theorem fillerCount_eq_zero {n : Nat} (h : n % 8 = 0 ∨ n % 8 = 7) : fillerCount n = 0 := by
  unfold fillerCount
  split <;> omega

/-- Where no filler is drawn, there is one ciphertext. -/
theorem cipherBlocks_congr (kb : List Byte) {msg filler filler' : List Byte} (hm : msg.length % 8 = 0 ∨ msg.length % 8 = 7)
    (hf : filler.length = fillerCount msg.length) (hf' : filler'.length = fillerCount msg.length) :
    cipherBlocks kb msg filler = cipherBlocks kb msg filler' := by
  rw [fillerCount_eq_zero hm] at hf hf'
  rw [List.eq_nil_of_length_eq_zero hf, List.eq_nil_of_length_eq_zero hf']

/-- The bytes of a message in its whole groups of 8. -/
def wholeGroups (msg : List Byte) : List Byte := msg.take (8 * (msg.length / 8))

/-- The bytes of a message after its whole groups. -/
def lastGroup (msg : List Byte) : List Byte := msg.drop (8 * (msg.length / 8))

theorem wholeGroups_append_lastGroup (msg : List Byte) : wholeGroups msg ++ lastGroup msg = msg :=
  List.take_append_drop _ msg

theorem length_wholeGroups_mod (msg : List Byte) : (wholeGroups msg).length % 8 = 0 := by
  rw [wholeGroups, List.length_take]
  omega

theorem length_lastGroup (msg : List Byte) : (lastGroup msg).length = msg.length % 8 := by
  rw [lastGroup, List.length_drop]
  omega

/-- The filler stands in the Block of the last group, which the sentinel and the filler complete (R157 (c)). -/
theorem cipherBlocks_unaligned (kb : List Byte) {msg filler : List Byte} (hm : msg.length % 8 ≠ 0)
    (hf : filler.length = fillerCount msg.length) : ∃ last : Block, cipherBlocks kb msg filler =
      (splitBlocks (wholeGroups msg)).map (encBlock (keySchedule kb)) ++ [last] := by
  have hlast : (lastGroup msg ++ sentinel :: filler).length = 8 := by
    rw [fillerCount, if_neg hm] at hf
    rw [List.length_append, length_lastGroup, List.length_cons, hf]
    omega
  obtain ⟨p, hp⟩ := List.length_eq_one_iff.mp (show (splitBlocks (lastGroup msg ++ sentinel :: filler)).length = 1 by
    rw [length_splitBlocks, hlast])
  have hsplit : padMsg msg filler = wholeGroups msg ++ (lastGroup msg ++ sentinel :: filler) := by
    rw [padMsg_unaligned hm, ← List.append_assoc, wholeGroups_append_lastGroup]
  refine ⟨encBlock (keySchedule kb) p, ?_⟩
  rw [cipherBlocks, encodeBlocks, hsplit, splitBlocks_append (length_wholeGroups_mod msg) (by rw [hlast]), hp,
    List.map_append, List.map_singleton]

/-- The text but for its last 16 characters does not depend on the filler (R157 (c)). -/
theorem take_serialize_cipherBlocks (kb : List Byte) {msg filler filler' : List Byte}
    (hf : filler.length = fillerCount msg.length) (hf' : filler'.length = fillerCount msg.length) :
    (serialize (cipherBlocks kb msg filler)).take ((serialize (cipherBlocks kb msg filler)).length - 16) =
      (serialize (cipherBlocks kb msg filler')).take ((serialize (cipherBlocks kb msg filler)).length - 16) := by
  by_cases hm : msg.length % 8 = 0
  · rw [cipherBlocks_congr kb (.inl hm) hf hf']
  · obtain ⟨p, hp⟩ := cipherBlocks_unaligned kb hm hf
    obtain ⟨q, hq⟩ := cipherBlocks_unaligned kb hm hf'
    have hgroup (r : Block) : (serialize [r]).length = 16 := length_serialize [r]
    rw [hp, hq, serialize_append, serialize_append, List.length_append, hgroup, Nat.add_sub_cancel, List.take_left,
      List.take_left]

/-- Where enough answers are listed, the filler is what they say (R186, log 3). -/
theorem filler_eq_take (h : fillerCount s.ib.length ≤ s.rng.answers.length) :
    s.filler = s.rng.answers.take (fillerCount s.ib.length) := by
  rw [← draw_prefix, ← State.filler, List.take_of_length_le (by rwa [length_filler])]

/-- Settles O44: the filler stands in the last Block alone, and the text determines it. -/
theorem encmsgFillerReachesOnlyLastGroup : Obligations.EncmsgFillerReachesOnlyLastGroup := by
  intro s g t u hx hy ht
  obtain ⟨hready, htob⟩ := encmsg_ok hx ht
  have hready' : EncmsgReady { s with rng := g } := ⟨hready.key, hready.message, hready.room⟩
  have hu : u.err = 0#4 := by cases (exec_encmsg hready').symm.trans hy; rfl
  have huob : u.ob = serialize (cipherBlocks s.kb s.ib (State.filler { s with rng := g })) := (encmsg_ok hy hu).2
  have hf := length_filler s
  have hf' : (State.filler { s with rng := g }).length = fillerCount s.ib.length := length_filler _
  rw [htob, huob]
  refine ⟨hu, ?_, take_serialize_cipherBlocks s.kb hf hf', fun hm => by rw [cipherBlocks_congr s.kb hm hf hf'],
    fun hm hs hg hne heq => hne ?_⟩
  · rw [length_serialize, length_serialize, length_cipherBlocks hf, length_cipherBlocks hf']
  · have hcount : fillerCount s.ib.length = 7 - s.ib.length % 8 := if_neg hm
    rw [← hcount] at hs hg ⊢
    rw [← filler_eq_take hs, filler_eq_of_serialize_eq hm hf hf' heq]
    exact filler_eq_take (s := { s with rng := g }) hg

/-! ## What DECMSG leaves (R158) -/

/-- The Blocks DECMSG makes of a text's Blocks under a key (R158). -/
def plainBlocks (kb : List Byte) (blocks : List Block) : List Block := blocks.map (decBlock (keySchedule kb))

/-- The state in which DECMSG's loop begins: the key expanded, OB empty. -/
def State.decmsgStart (s : State) : State := { s with k := keySchedule s.kb, kvalid := true, ob := [] }

/-- A text within the capacity has half as many bytes as OB has room for. -/
theorem decmsgStart_room {blocks : List Block} (hcap : s.ib.length ≤ s.cap) (hblocks : deserialize s.ib = some blocks) :
    s.decmsgStart.ob.length + 8 * blocks.length ≤ s.decmsgStart.cap := by
  obtain ⟨hlen, -⟩ := deserialize_eq_some_iff.mp hblocks
  show 0 + 8 * blocks.length ≤ s.cap
  omega

theorem decmsgWork_ok {s1 s2 s3 : State} (h1 : kexpSteps s = .ok s1)
    (h2 : forBlocks decBlockSteps (s.ib.length / 16) (s1.memTrunc .OB 0) = .ok s2) (h3 : unpadSteps s2 = .ok s3) :
    decmsgWork s = .ok s3.consume := by
  simp only [decmsgWork, h1, h2, h3, bind, Except.bind]

/-- OB after the last turn holds the bytes of the Blocks, which UNPAD cuts at the sentinel. -/
theorem unpadSteps_emit {blocks : List Block} (hob : s.ob = []) : unpadSteps (s.emit joinBlock blocks) =
    .ok { s.emit joinBlock blocks with ob := decodeBytes blocks } := by
  rw [unpadSteps_eq, State.emit, hob, List.nil_append, decodeBytes]

theorem length_plainBlocks {chars : List Byte} {blocks : List Block} (kb : List Byte)
    (hblocks : deserialize chars = some blocks) : (plainBlocks kb blocks).length = chars.length / 16 := by
  rw [plainBlocks, List.length_map, (deserialize_eq_some_iff.mp hblocks).1]

theorem decmsgSteps_eq {blocks : List Block} (h : DecmsgReady s) (hcap : s.ib.length ≤ s.cap)
    (hblocks : deserialize s.ib = some blocks) : decmsgSteps s =
      .ok { s.decmsgStart.emit joinBlock (plainBlocks s.kb blocks) with
            ob := decodeBytes (plainBlocks s.kb blocks) }.consume := by
  have hcount := length_plainBlocks s.kb hblocks
  have hturns : TurnsEmit decBlockSteps s.decmsgStart joinBlock (plainBlocks s.kb blocks) :=
    decBlockSteps_turnsEmit (s := s.decmsgStart) rfl hblocks (decmsgStart_room hcap hblocks)
  rw [decmsgSteps_ready h]
  exact decmsgWork_ok (kexpSteps_key h.key) (hcount ▸ forBlocks_emit hturns) (unpadSteps_emit rfl)

theorem exec_decmsg {blocks : List Block} (h : DecmsgReady s) (hcap : s.ib.length ≤ s.cap)
    (hblocks : deserialize s.ib = some blocks) : exec .decmsg s =
      .next { s.decmsgStart.emit joinBlock (plainBlocks s.kb blocks) with
              ob := decodeBytes (plainBlocks s.kb blocks) }.consume.succeed :=
  exec_of_ok .decmsg (decmsgSteps_eq h hcap hblocks)

/-- Settles O48: the loop emits the decrypted Blocks of the text, UNPAD cuts their bytes, and `consume` drops key and text. -/
theorem decmsgDecryptsMessage : Obligations.DecmsgDecryptsMessage := by
  intro s hk _ hi hcap hwhole hhex
  obtain ⟨blocks, hblocks⟩ := exists_deserialize_eq_some hhex
  have hlen := length_plainBlocks s.kb hblocks
  obtain ⟨last, hlast⟩ := exists_getLast?_eq_some (blocks := plainBlocks s.kb blocks) (by omega)
  refine ⟨blocks, last, hblocks, hlast, ?_⟩
  rw [exec_decmsg (decmsgReady_of_bounds hk hi hwhole hhex) hcap hblocks, emit_eq hlast]
  rfl

/-! ## DECMSG's output (R159) -/

theorem length_unpad_eq_iff {buf : List Byte} : (unpad buf).length = buf.length ↔ ∀ c ∈ buf, c ≠ sentinel := by
  have hself : unpad buf = buf ↔ ∀ c ∈ buf, c ≠ sentinel := by
    simp only [unpad, List.takeWhile_eq_self_iff, bne_iff_ne]
  exact ⟨fun h => hself.mp ((unpad_prefix buf).eq_of_length h), fun h => congrArg List.length (hself.mpr h)⟩

theorem unpad_of_head? {buf : List Byte} (h : buf.head? = some sentinel) : unpad buf = [] := by
  obtain ⟨rest, rfl⟩ := List.head?_eq_some_iff.mp h
  exact unpad_sentinel_cons rest

/-- Settles O49: `Unpad` leaves at most the 8 bytes of each Block, all of them when no sentinel is among them. -/
theorem decmsgOutputLength : Obligations.DecmsgOutputLength := by
  intro s t blocks hcap hx ht hblocks
  obtain ⟨u, hu⟩ := commandSteps_ok_of_err hx ht
  have hready : DecmsgReady s := decmsgReady_of_ok hu
  have hwhole := hready.whole
  cases (exec_decmsg hready hcap hblocks).symm.trans hx
  have hbytes : ((plainBlocks s.kb blocks).flatMap joinBlock).length = s.ib.length / 2 := by
    rw [length_flatMap_block length_joinBlock, length_plainBlocks s.kb hblocks]
    omega
  rw [← hbytes]
  exact ⟨(unpad_prefix _).length_le, length_unpad_eq_iff, unpad_of_head?⟩

/-! ## The round trip (R160) -/

theorem decodeBytes_plainBlocks_cipherBlocks (kb : List Byte) {msg filler : List Byte} (hmsg : sentinel ∉ msg)
    (hf : filler.length = fillerCount msg.length) : decodeBytes (plainBlocks kb (cipherBlocks kb msg filler)) = msg := by
  have hback : plainBlocks kb (cipherBlocks kb msg filler) = encodeBlocks msg filler := by
    rw [plainBlocks, cipherBlocks, List.map_map]
    exact List.map_id'' (decBlock_encBlock (keySchedule kb)) _
  rw [hback, decodeBytes, encodeBlocks, flatMap_joinBlock_splitBlocks (length_padMsg_mod hf), unpad_padMsg hmsg]

/-- The text of one or more Blocks passes DECMSG's checks. -/
theorem decmsgReady_of_serialize {blocks : List Block} (hk : s.kb.length ≠ 0) (hpos : 0 < blocks.length)
    (hib : s.ib = serialize blocks) : DecmsgReady s := by
  have hlen : s.ib.length = 16 * blocks.length := hib ▸ length_serialize blocks
  refine ⟨hk, by omega, by omega, fun c hc => ?_⟩
  obtain ⟨v, rfl⟩ := mem_serialize (hib ▸ hc)
  rw [hexVal_hexChar]
  exact Option.some_ne_none v

/-- Settles O51: the text parses to the Blocks it was made of, decryption gives back the padded message's, and `Unpad` the
message. -/
theorem messageRoundTrip : Obligations.MessageRoundTrip := by
  intro s hk _ hi hmsg hroom
  refine ⟨_, exec_encmsg (encmsgReady_of_bounds hk hi hroom), rfl, fun u hkb hib hcap => ?_⟩
  have hib : u.ib = serialize (cipherBlocks s.kb s.ib s.filler) := hib
  have hlen := length_cipherBlocks (kb := s.kb) (length_filler s)
  have hready : DecmsgReady u := decmsgReady_of_serialize (hkb ▸ Nat.one_le_iff_ne_zero.mp hk) (by omega) hib
  refine ⟨_, exec_decmsg hready hcap (hib ▸ deserialize_serialize _), rfl, ?_⟩
  rw [hkb]
  exact decodeBytes_plainBlocks_cipherBlocks s.kb (fun hmem => hmsg _ hmem rfl) (length_filler s)

/-! ## Commands given one after the other (R155) -/

section
variable {rest first : List Instr}

theorem hostRun_cons_of_ok (i : Instr) (h : commandSteps i s = .ok u) : hostRun (i :: rest) s = hostRun rest u.succeed := by
  simp only [hostRun, exec_of_ok i h, State.succeed_err, if_true]

theorem succeed_of_err (h : s.err = 0#4) : s.succeed = s := by
  rw [State.succeed, ← h]

theorem hostRun_singleton (i : Instr) (s : State) : hostRun [i] s = exec i s := by
  obtain ⟨t, ht⟩ := exec_next i s
  simp only [hostRun, ht, ite_self]

/-- Commands that all succeed, and the commands after them. -/
theorem hostRun_append (h : hostRun first s = .next t) (ht : t.err = 0#4) : hostRun (first ++ rest) s = hostRun rest t := by
  induction first generalizing s with
  | nil => cases h; rfl
  | cons i first ih =>
    obtain ⟨u, hu⟩ := exec_next i s
    simp only [List.cons_append, hostRun, hu] at h ⊢
    split at h
    case isTrue he => rw [if_pos he, ih h]
    case isFalse he => cases h; exact absurd ht he

end

theorem DiffersInRegisters.err_eq (h : DiffersInRegisters s u) : u.err = s.err := by
  obtain ⟨p, rfl⟩ := h
  rfl

theorem AppendsOutput.err_eq (h : AppendsOutput s u) : u.err = s.err := by
  obtain ⟨b, -, rfl⟩ := h
  rfl

/-- Three commands from a state with `ERR = 0`, whose steps go through and do not write `ERR`. -/
theorem hostRun_three {i j l : Instr} {a b : State} (hu : u.err = 0#4) (hi : commandSteps i u = .ok a)
    (ha : a.err = u.err) (hj : commandSteps j a = .ok b) (hb : b.err = a.err) (hl : commandSteps l b = .ok v)
    (hv : v.err = b.err) : hostRun [i, j, l] u = .next v := by
  rw [hostRun_cons_of_ok i hi, succeed_of_err (ha.trans hu), hostRun_cons_of_ok j hj, succeed_of_err (by rw [hb, ha, hu]),
    hostRun_cons_of_ok l hl, succeed_of_err (by rw [hv, hb, ha, hu])]
  rfl

/-- An index that fits the 16-bit operand of LDBLK and LDHEX. -/
theorem toNat_index {n : Nat} (hn : n < 65536) : (BitVec.ofNat 16 n).toNat = n := by
  rw [BitVec.toNat_ofNat, Nat.mod_eq_of_lt hn]

/-- One turn of ENCMSG's loop as commands (R157 (d)). -/
def encTurn (n : Nat) : List Instr := [.ldblk (BitVec.ofNat 16 n), .encb, .sthex]

/-- One turn of DECMSG's loop as commands (R159 (d)). -/
def decTurn (n : Nat) : List Instr := [.ldhex (BitVec.ofNat 16 n), .decb, .stblk]

theorem hostRun_encTurn {n : Nat} (hn : n < 65536) (hu : u.err = 0#4) (h : encBlockSteps n u = .ok v) :
    hostRun (encTurn n) u = .next v := by
  obtain ⟨a, ha, h⟩ := steps_bind_ok h
  obtain ⟨b, hb, h⟩ := steps_bind_ok h
  exact hostRun_three hu (by rwa [commandSteps, toNat_index hn]) (ldblkSteps_ok ha).err_eq hb (encbSteps_ok hb).err_eq h
    (sthexSteps_ok h).err_eq

theorem hostRun_decTurn {n : Nat} (hn : n < 65536) (hu : u.err = 0#4) (h : decBlockSteps n u = .ok v) :
    hostRun (decTurn n) u = .next v := by
  obtain ⟨a, ha, h⟩ := steps_bind_ok h
  obtain ⟨b, hb, h⟩ := steps_bind_ok h
  exact hostRun_three hu (by rwa [commandSteps, toNat_index hn]) (ldhexSteps_ok ha).err_eq hb (decbSteps_ok hb).err_eq h
    (stblkSteps_ok h).err_eq

/-- A loop's turns given as commands, one turn after the other. -/
theorem hostRun_turns {body : Nat → State → Steps} {turn : Nat → List Instr} {f : Block → List Byte} {blocks : List Block}
    (hturn : ∀ n u v, n < blocks.length → u.err = 0#4 → body n u = .ok v → hostRun (turn n) u = .next v)
    (hs : s.err = 0#4) (h : TurnsEmit body s f blocks) :
    hostRun ((List.range blocks.length).flatMap turn) s = .next (s.emit f blocks) := by
  have hfirst : ∀ m ≤ blocks.length, hostRun ((List.range m).flatMap turn) s = .next (s.emit f (blocks.take m)) := by
    intro m hm
    induction m with
    | zero => rw [List.take_zero, emit_nil]; rfl
    | succ m ih =>
      rw [List.range_succ, List.flatMap_append, List.flatMap_singleton, hostRun_append (ih (by omega)) hs]
      exact hturn m _ _ hm hs (h m hm)
  rw [hfirst _ le_rfl, List.take_length]

/-- CLR 3 consumes key and message as ENCMSG and DECMSG do (R156, R158, R161). -/
theorem hostRun_clr_three (rest : List Instr) (s : State) :
    hostRun (.clr 3 :: rest) s = hostRun rest s.consume.succeed := hostRun_cons_of_ok (.clr 3) (clrSteps_eq 3 s)

theorem hostRun_clr_four (rest : List Instr) (s : State) :
    hostRun (.clr 4 :: rest) s = hostRun rest { s with ob := [], err := 0#4 } :=
  hostRun_cons_of_ok (.clr 4) (clrSteps_eq 4 s)

theorem hostRun_kexp (hk : s.kb.length ≠ 0) (rest : List Instr) : hostRun (.kexp :: rest) s =
    hostRun rest { s with k := keySchedule s.kb, kvalid := true, err := 0#4 } :=
  hostRun_cons_of_ok .kexp (kexpSteps_key hk)

/-- The commands before ENCMSG's loop (R157 (d)). -/
theorem hostRun_encmsgStart (hk : s.kb.length ≠ 0) :
    hostRun [.kexp, .pad, .clr 4] s = .next s.encmsgStart.succeed := by
  have hpad := padSteps_congr (s := s) (t := { s with k := keySchedule s.kb, kvalid := true, err := 0#4 }) rfl rfl
  rw [hostRun_kexp hk, hostRun_cons_of_ok .pad hpad, hostRun_clr_four]
  rfl

/-- The commands before DECMSG's loop (R159 (d)). -/
theorem hostRun_decmsgStart (hk : s.kb.length ≠ 0) : hostRun [.kexp, .clr 4] s = .next s.decmsgStart.succeed := by
  rw [hostRun_kexp hk, hostRun_clr_four]
  rfl

/-- Settles O45: both sides run the same turns from the same state but for `ERR`, which the sequence's commands have cleared. -/
theorem encmsgIsItsCommandSequence : Obligations.EncmsgIsItsCommandSequence := by
  intro s hk hi hroom hindex
  have hready := encmsgReady_of_bounds hk hi hroom
  have hlen := length_cipherBlocks (kb := s.kb) (length_filler s)
  have hloop : hostRun ((List.range (cipherBlocks s.kb s.ib s.filler).length).flatMap encTurn) s.encmsgStart.succeed =
      .next (s.encmsgStart.succeed.emit toHex (cipherBlocks s.kb s.ib s.filler)) :=
    hostRun_turns (fun n _ _ hn => hostRun_encTurn (by omega)) rfl
      (encBlockSteps_turnsEmit (s := s.encmsgStart.succeed) rfl (encmsgStart_room hready))
  rw [hlen] at hloop
  rw [exec_encmsg hready, encmsgSequence, List.append_assoc, hostRun_append (hostRun_encmsgStart hready.key) rfl]
  refine Eq.symm ((hostRun_append hloop rfl).trans ?_)
  rw [hostRun_clr_three]
  rfl

/-- Settles O50: both sides run the same turns from the same state but for `ERR`, which the sequence's commands have cleared. -/
theorem decmsgIsItsCommandSequence : Obligations.DecmsgIsItsCommandSequence := by
  intro s hk hi hcap hwhole hhex hindex
  have hready := decmsgReady_of_bounds hk hi hwhole hhex
  obtain ⟨blocks, hblocks⟩ := exists_deserialize_eq_some hhex
  have hlen := length_plainBlocks s.kb hblocks
  have hloop : hostRun ((List.range (plainBlocks s.kb blocks).length).flatMap decTurn) s.decmsgStart.succeed =
      .next (s.decmsgStart.succeed.emit joinBlock (plainBlocks s.kb blocks)) :=
    hostRun_turns (fun n _ _ hn => hostRun_decTurn (by omega)) rfl
      (decBlockSteps_turnsEmit (s := s.decmsgStart.succeed) rfl hblocks (decmsgStart_room hcap hblocks))
  rw [hlen] at hloop
  rw [exec_decmsg hready hcap hblocks, decmsgSequence, List.append_assoc,
    hostRun_append (hostRun_decmsgStart hready.key) rfl]
  refine Eq.symm ((hostRun_append hloop rfl).trans ?_)
  rw [hostRun_cons_of_ok .unpad (unpadSteps_emit rfl), hostRun_clr_three]
  rfl

/-! ## The host's procedures (R155) -/

/-- The state the host's loading leaves: CLR 15, the key bytes, the bytes of the message or the text (R155). -/
def State.loaded (s : State) (key text : List Byte) : State :=
  { State.resetWith s.cfg with errlog := s.errlog, rng := s.rng, port := s.port, kb := key, ib := text }

/-- KPUT for each byte of a key that fits, in a state without a schedule. -/
theorem hostRun_kputs {key : List Byte} (hk : s.k = Vector.replicate 52 0#16) (hv : s.kvalid = false) (he : s.err = 0#4)
    (hroom : s.kb.length + key.length ≤ 16) : hostRun (key.map .kput) s = .next { s with kb := s.kb ++ key } := by
  induction key generalizing s with
  | nil => rw [List.append_nil]; rfl
  | cons b key ih =>
    rw [List.length_cons] at hroom
    have hrest : (s.kb ++ [b]).length + key.length ≤ 16 := by rw [List.length_append, List.length_singleton]; omega
    rw [List.map_cons, hostRun_cons_of_ok (.kput b) (kputSteps_room b (by omega)), ih rfl rfl rfl hrest]
    simp [State.succeed, hk, hv, he]

/-- IPUT for each byte of a message or a text that fits. -/
theorem hostRun_iputs {text : List Byte} (he : s.err = 0#4) (hroom : s.ib.length + text.length ≤ s.cap) :
    hostRun (text.map .iput) s = .next { s with ib := s.ib ++ text } := by
  induction text generalizing s with
  | nil => rw [List.append_nil]; rfl
  | cons b text ih =>
    rw [List.length_cons] at hroom
    have hrest : (s.ib ++ [b]).length + text.length ≤ s.cap := by rw [List.length_append, List.length_singleton]; omega
    rw [List.map_cons, hostRun_cons_of_ok (.iput b) (iputSteps_room b (by omega)), ih rfl hrest]
    simp [State.succeed, he]

/-- The host's commands up to ENCMSG or DECMSG load key and text, whatever the engine held before. -/
theorem hostRun_load {key text : List Byte} (i : Instr) (hkey : key.length ≤ 16) (htext : text.length ≤ s.cap) :
    hostRun (.clr 15 :: (key.map .kput ++ text.map .iput ++ [i])) s = exec i (s.loaded key text) := by
  have hclr (rest : List Instr) : hostRun (.clr 15 :: rest) s = hostRun rest (s.loaded [] []) :=
    hostRun_cons_of_ok (.clr 15) (clrSteps_eq 15 s)
  have hkputs : hostRun (key.map .kput) (s.loaded [] []) = .next (s.loaded key []) :=
    hostRun_kputs rfl rfl rfl (by simpa [State.loaded] using hkey)
  have hiputs : hostRun (text.map .iput) (s.loaded key []) = .next (s.loaded key text) :=
    hostRun_iputs rfl ((Nat.zero_add _).trans_le htext)
  rw [hclr, List.append_assoc, hostRun_append hkputs rfl, hostRun_append hiputs rfl, hostRun_singleton]

/-- A byte read as a character is sent back as that byte (R155, log 12). -/
theorem charCode_asciiChar : ∀ b : Byte, charCode (asciiChar b) = b := by decide

theorem hostEncrypt_eq {Text : Type} {escape : Text → List Byte} {plaintext key : Text}
    (hkey : (escape key).length ≤ 16) (htext : (escape plaintext).length ≤ s.cap)
    (hx : exec .encmsg (s.loaded (escape key) (escape plaintext)) = .next t) (ht : t.err = 0#4) :
    hostEncrypt escape plaintext key s = some (.ok (t.ob.map asciiChar), t) := by
  rw [hostEncrypt, encryptCommands, hostRun_load .encmsg hkey htext, hx]
  simp only [hostResult, ht, if_true]
  rfl

theorem hostDecrypt_eq {Text : Type} {escape : Text → List Byte} {unescape : List Byte → Text} {text : List Byte}
    {key : Text} (hkey : (escape key).length ≤ 16) (htext : text.length ≤ s.cap)
    (hx : exec .decmsg (s.loaded (escape key) text) = .next t) (ht : t.err = 0#4) :
    hostDecrypt escape unescape (text.map asciiChar) key s = some (.ok (unescape t.ob), t) := by
  have hcodes : (text.map asciiChar).map charCode = text := by
    rw [List.map_map]
    exact List.map_id'' charCode_asciiChar text
  rw [hostDecrypt, hcodes, decryptCommands, hostRun_load .decmsg hkey htext, hx]
  simp only [hostResult, ht, if_true]
  rfl

/-- Settles O52: the engine's round trip between the two loaded states, with characters and bytes taken for each other. -/
theorem hostDecryptReturnsPlaintext : Obligations.HostDecryptReturnsPlaintext := by
  intro Text escape unescape plaintext key s u hescape hplain hpos hkpos hkey hs hu
  obtain ⟨t, ht, hterr, hback⟩ :=
    messageRoundTrip (s.loaded (escape key) (escape plaintext)) hkpos hkey hpos hplain hs
  obtain ⟨hlen, hlen16, -⟩ := encmsgOutputIsUppercaseHex _ t ht hterr
  have hfits : t.ob.length ≤ u.cap := hlen.trans_le hu
  obtain ⟨v, hv, hverr, hvob⟩ := hback (u.loaded (escape key) t.ob) rfl rfl hfits
  refine ⟨t.ob.map asciiChar, t, v, hostEncrypt_eq hkey (by omega) ht hterr, (List.length_map _).trans hlen16, ?_⟩
  rw [hostDecrypt_eq hkey hfits hv hverr, hvob]
  exact congrArg (fun x => some (Except.ok x, v)) (hescape plaintext)

end Sys2Proof.Machine

/-! PROOFS. The statements about errors and about runs (60_exceptions.md R170, R176 to R178).

The idea: no step stops, and each keeps the invariant and the capacity, so a run of any length does. For the errors: a command
that fails leaves `State.raise` of the one error its steps give, and which errors the steps of each command can give is said once
(`commandSteps_error`). ENCMSG and DECMSG add none to those of their own checks, because their work goes through once these are
passed. -/

namespace Sys2Proof.Machine

variable {s t u : State}

/-! ## Every step ends in a next state (R177) -/

theorem execWord_next (w : CommandWord) (s : State) : ∃ t, execWord w s = .next t := by
  unfold execWord
  cases decode w with
  | ok i => exact exec_next i s
  | error e => exact ⟨_, rfl⟩

theorem step_next (s : State) : ∃ t, step s = .next t := by
  unfold step
  split
  · exact ⟨_, rfl⟩
  · exact ⟨_, rfl⟩
  · exact execWord_next _ _

/-! ## No step changes the capacity (R6) -/

theorem exec_cfg {i : Instr} (hx : exec i s = .next t) : t.cfg = s.cfg := by
  rcases exec_cases hx with ⟨u, hu, rfl⟩ | ⟨e, -, rfl⟩
  · exact (commandSteps_effect hu).bounds.cfg
  · rfl

theorem execWord_cfg {w : CommandWord} (hx : execWord w s = .next t) : t.cfg = s.cfg := by
  rcases execWord_cases hx with ⟨i, -, hi⟩ | rfl
  · exact exec_cfg hi
  · rfl

theorem step_cfg (h : step s = .next t) : t.cfg = s.cfg := by
  rcases step_cases h with ⟨-, rfl⟩ | ⟨rest, -, rfl⟩ | ⟨w, rest, -, hw⟩
  · rfl
  · rfl
  · exact execWord_cfg (s := { s with port := rest }) hw

/-! ## Runs (R177) -/

/-- One step more, taken first. -/
theorem runsTo_succ {n : Nat} {P : State → Prop} (h : step s = .next t) (ht : RunsTo n t P) : RunsTo (n + 1) s P := by
  obtain ⟨v, hv, hP⟩ := ht
  have hcore : Sys2Proof.core.step s = .next t := h
  exact ⟨v, by simpa only [Host.Core.run, hcore] using hv, hP⟩

/-- What every step keeps, every run keeps; and no run is stopped. -/
theorem runsTo_of_step_keeps {P : State → Prop} (hstep : ∀ s t, P s → step s = .next t → P t) (n : Nat) (hs : P s) :
    RunsTo n s P := by
  induction n generalizing s with
  | zero => exact ⟨s, rfl, hs⟩
  | succ n ih =>
    obtain ⟨t, ht⟩ := step_next s
    exact runsTo_succ ht (ih (hstep s t hs ht))

/-- Settles O60: every step ends in a next state, with the invariant (O59) and the same capacity. -/
theorem everyRunCompletes : Obligations.EveryRunCompletes :=
  fun n _ hinv => runsTo_of_step_keeps
    (fun s t ⟨hs, hcfg⟩ hst => ⟨everyStepKeepsInvariant s t hs hst, (step_cfg hst).trans hcfg⟩) n ⟨hinv, rfl⟩

/-! ## What an error changes (R176) -/

/-- Raising an error leaves its number in `ERR` and the state of R176. -/
theorem raise_reports (s : State) (e : ErrorCode) :
    1 ≤ (s.raise e).err.toNat ∧ (s.raise e).err.toNat ≤ 9 ∧ s.raise e = raised s (s.raise e).err.toNat :=
  ⟨(code_range e).1, (code_range e).2, raise_eq_raised s e⟩

theorem exec_eq_raised {i : Instr} (hx : exec i s = .next t) (ht : t.err ≠ 0#4) :
    1 ≤ t.err.toNat ∧ t.err.toNat ≤ 9 ∧ t = raised s t.err.toNat := by
  rcases exec_cases hx with ⟨u, -, rfl⟩ | ⟨e, -, rfl⟩
  · exact absurd rfl ht
  · exact raise_reports s e

/-- Settles O54: a command that succeeds leaves `ERR = 0`, and everything else that reports an error is `State.raise`. -/
theorem errorsChangeOnlyErrAndErrlog : Obligations.ErrorsChangeOnlyErrAndErrlog := by
  refine ⟨fun i s t => exec_eq_raised, fun w s t hx ht => ?_⟩
  rcases execWord_cases hx with ⟨i, -, hi⟩ | rfl
  · exact exec_eq_raised hi ht
  · exact raise_reports s .illegalCommand

/-! ## Which errors each command's steps can give (R170, R178) -/

variable {e : ErrorCode}

/-- Steps that are one check before the work give that check's error only. -/
theorem steps_check_error {p : Prop} [Decidable p] {c : ErrorCode} (h : (if p then .error c else .ok u : Steps) = .error e) :
    e = c := by
  by_cases hp : p
  · rw [if_pos hp] at h; exact (Except.error.inj h).symm
  · rw [if_neg hp] at h; cases h

theorem kputSteps_error {imm : Byte} (h : kputSteps imm s = .error e) : e = .keyOverflow := steps_check_error h

theorem kexpSteps_error (h : kexpSteps s = .error e) : e = .missingKey := steps_check_error h

theorem encbSteps_error (h : encbSteps s = .error e) : e = .noSchedule := steps_check_error h

theorem decbSteps_error (h : decbSteps s = .error e) : e = .noSchedule := steps_check_error h

theorem iputSteps_error {imm : Byte} (h : iputSteps imm s = .error e) : e = .bufferOverflow := steps_check_error h

theorem sthexSteps_error (h : sthexSteps s = .error e) : e = .bufferOverflow := steps_check_error h

theorem stblkSteps_error (h : stblkSteps s = .error e) : e = .bufferOverflow := steps_check_error h

theorem ldkSteps_error {rd : Reg} {i : Nat} (h : ldkSteps rd i s = .error e) : e = .noSchedule ∨ e = .indexRange := by
  cases hv : s.kvalid with
  | false => cases (ldkSteps_invalid rd i hv).symm.trans h; exact .inl rfl
  | true =>
    by_cases hi : i < 52
    · cases (ldkSteps_inside rd hv hi).symm.trans h
    · cases (ldkSteps_outside rd hv (by omega)).symm.trans h; exact .inr rfl

theorem ldblkSteps_error {n : Nat} (h : ldblkSteps n s = .error e) : e = .indexRange := by
  by_cases hn : 8 * n + 8 ≤ s.ib.length
  · cases (ldblkSteps_inside hn).symm.trans h
  · cases (ldblkSteps_outside (by omega)).symm.trans h; rfl

theorem ldhexSteps_error {n : Nat} (h : ldhexSteps n s = .error e) : e = .invalidCiphertext ∨ e = .indexRange := by
  by_cases hn : 16 * n + 16 ≤ s.ib.length
  · cases hp : parseHex (s.memRead .IB (16 * n) 16) with
    | none => cases (ldhexSteps_bad hn hp).symm.trans h; exact .inl rfl
    | some p => cases (ldhexSteps_good hn hp).symm.trans h
  · cases (ldhexSteps_outside (by omega)).symm.trans h; exact .inr rfl

theorem encmsgSteps_error (h : encmsgSteps s = .error e) :
    e = .missingKey ∨ e = .emptyPlaintext ∨ e = .bufferOverflow := by
  by_cases hk : s.kb.length = 0
  · cases (encmsgSteps_noKey hk).symm.trans h; exact .inl rfl
  by_cases hi : s.ib.length = 0
  · cases (encmsgSteps_noMessage hk hi).symm.trans h; exact .inr (.inl rfl)
  rcases Nat.lt_or_ge s.cap (2 * paddedLength s.ib.length) with hc | hc
  · cases (encmsgSteps_noRoom hk hi hc).symm.trans h; exact .inr (.inr rfl)
  · cases (encmsgSteps_eq ⟨hk, hi, hc⟩).symm.trans h

/-- Within the capacity, DECMSG's output fits, so that its work cannot fail (log 15). -/
theorem decmsgSteps_error (hib : s.ib.length ≤ s.cap) (h : decmsgSteps s = .error e) :
    e = .missingKey ∨ e = .emptyCiphertext ∨ e = .invalidCiphertext := by
  by_cases hk : s.kb.length = 0
  · cases (decmsgSteps_noKey hk).symm.trans h; exact .inl rfl
  by_cases hi : s.ib.length = 0
  · cases (decmsgSteps_noText hk hi).symm.trans h; exact .inr (.inl rfl)
  by_cases hbad : s.ib.length % 16 ≠ 0 ∨ allHex s.ib = false
  · cases (decmsgSteps_bad hk hi hbad).symm.trans h; exact .inr (.inr rfl)
  · rw [not_or, not_not, Bool.not_eq_false, allHex_iff] at hbad
    obtain ⟨hwhole, hhex⟩ := hbad
    obtain ⟨blocks, hblocks⟩ := exists_deserialize_eq_some hhex
    cases (decmsgSteps_eq ⟨hk, hi, hwhole, hhex⟩ hib hblocks).symm.trans h

/-- The error a command's steps give is in the table's row for the command. -/
theorem commandSteps_error {i : Instr} (hib : s.ib.length ≤ s.cap) (h : commandSteps i s = .error e) :
    e.code.toNat ∈ reportable i.mnemonic := by
  cases i with
  | clr mask => cases (clrSteps_eq mask s).symm.trans h
  | ldi rd imm => cases h
  | add rd rs1 rs2 => cases h
  | mul rd rs1 rs2 => cases h
  | ainv rd rs1 => cases h
  | minv rd rs1 => cases h
  | kput imm => show _ ∈ reportable .KPUT; cases kputSteps_error h; decide
  | kexp => cases kexpSteps_error h; decide
  | ldk rd index => show _ ∈ reportable .LDK; rcases ldkSteps_error h with rfl | rfl <;> decide
  | encb => cases encbSteps_error h; decide
  | decb => cases decbSteps_error h; decide
  | iput imm => show _ ∈ reportable .IPUT; cases iputSteps_error h; decide
  | pad => cases (padSteps_eq s).symm.trans h
  | ldblk n => show _ ∈ reportable .LDBLK; cases ldblkSteps_error h; decide
  | sthex => cases sthexSteps_error h; decide
  | ldhex n => show _ ∈ reportable .LDHEX; rcases ldhexSteps_error h with rfl | rfl <;> decide
  | stblk => cases stblkSteps_error h; decide
  | unpad => cases h
  | encmsg => rcases encmsgSteps_error h with rfl | rfl | rfl <;> decide
  | decmsg => rcases decmsgSteps_error hib h with rfl | rfl | rfl <;> decide

/-- Every command can succeed. -/
theorem zero_mem_reportable (m : Mnemonic) : 0 ∈ reportable m := by cases m <;> decide

/-- Settles O55: success leaves 0, and an error the number of the one its steps gave. -/
theorem commandsReportOnlyTheirErrors : Obligations.CommandsReportOnlyTheirErrors := by
  intro i s t hib hx
  rcases exec_cases hx with ⟨u, -, rfl⟩ | ⟨e, he, rfl⟩
  · exact zero_mem_reportable i.mnemonic
  · exact commandSteps_error hib he

end Sys2Proof.Machine

/-! PROOFS. The statements about reset and hazards (70_reset_and_hazards.md R190, R198, R201).

The idea for R198: `padKey` fills with the byte the key is extended by, so the padded keys are equal, and KEXP and ENCMSG read the
key through its schedule only. For R201: `CAP` is a multiple of 16, so room for the padded message is room for the message. -/

namespace Sys2Proof.Machine

variable {s : State}

/-! ## Reset and waiting (R190, R5) -/

theorem step_reset {rest : List HostEvent} (hp : s.port = .reset :: rest) :
    step s = .next (State.resetEvent { s with port := rest }) := by
  simp only [step, hp]

theorem step_idle (hp : s.port = []) : step s = .next s := by
  simp only [step, hp]

/-- Settles O2: the two steps that run no command. -/
theorem resetAndIdleSteps : Obligations.ResetAndIdleSteps :=
  ⟨fun _ _ hp => step_reset hp, fun _ hp => step_idle hp⟩

/-! ## A key and its extension by `0x01` bytes (R198) -/

/-- The bytes the key is extended by take the place of as many of the bytes `padKey` appends. -/
theorem padKey_append_ones {kb : List Byte} {n : Nat} (h : kb.length + n ≤ 16) :
    padKey (kb ++ List.replicate n 1#8) = padKey kb := by
  have hcount : n + (16 - (kb.length + n)) = 16 - kb.length := by omega
  rw [padKey, padKey, List.length_append, List.length_replicate, List.append_assoc, List.replicate_append_replicate, hcount]

theorem keySchedule_append_ones {kb : List Byte} {n : Nat} (h : kb.length + n ≤ 16) :
    keySchedule (kb ++ List.replicate n 1#8) = keySchedule kb := by
  rw [keySchedule, padKey_append_ones h, keySchedule]

theorem exec_kexp (h : s.kb.length ≠ 0) :
    exec .kexp s = .next { s with k := keySchedule s.kb, kvalid := true, err := 0#4 } :=
  exec_of_ok .kexp (kexpSteps_key h)

/-- What PAD draws does not depend on the key. -/
theorem filler_set_kb (s : State) (kb : List Byte) : State.filler { s with kb := kb } = s.filler :=
  draw_congr (s := { s with kb := kb }) (t := s) rfl (fillerCount s.ib.length)

theorem rngAfterPad_set_kb (s : State) (kb : List Byte) : State.rngAfterPad { s with kb := kb } = s.rngAfterPad := by
  rw [State.rngAfterPad, State.rngAfterPad, draw_state, draw_state]

/-- The key reaches the start of ENCMSG's loop by its schedule only. -/
theorem encmsgStart_of_keySchedule_eq {kb : List Byte} (hsched : keySchedule kb = keySchedule s.kb) :
    State.encmsgStart { s with kb := kb } = { s.encmsgStart with kb := kb } := by
  simp only [State.encmsgStart, hsched, filler_set_kb, rngAfterPad_set_kb]

/-- ENCMSG ends with the key gone (R156), so two keys with one schedule leave the same state. -/
theorem exec_encmsg_of_keySchedule_eq {kb : List Byte} (hready : EncmsgReady s) (hkb : kb.length ≠ 0)
    (hsched : keySchedule kb = keySchedule s.kb) : exec .encmsg { s with kb := kb } = exec .encmsg s := by
  have hready' : EncmsgReady { s with kb := kb } := ⟨hkb, hready.message, hready.room⟩
  have hblocks : cipherBlocks kb s.ib s.filler = cipherBlocks s.kb s.ib s.filler := by
    rw [cipherBlocks, hsched, cipherBlocks]
  rw [exec_encmsg hready, exec_encmsg hready', encmsgStart_of_keySchedule_eq hsched, filler_set_kb, hblocks]
  rfl

/-- Settles O20: the extended key has the schedule of the short one. -/
theorem shortKeyExtensionSameCiphertext : Obligations.ShortKeyExtensionSameCiphertext := by
  intro s n hkey hlen
  have hsched := keySchedule_append_ones hlen
  have hkb : s.kb.length ≠ 0 := Nat.one_le_iff_ne_zero.mp hkey
  have hext : (s.kb ++ List.replicate n 1#8).length ≠ 0 := by rw [List.length_append]; omega
  refine ⟨⟨keySchedule s.kb, exec_kexp hkb, ?_⟩, fun t hx ht => ?_⟩
  · rw [← hsched]
    exact exec_kexp (s := { s with kb := s.kb ++ List.replicate n 1#8 }) hext
  · rw [exec_encmsg_of_keySchedule_eq (encmsg_ok hx ht).1 hext hsched, hx]

/-! ## The messages ENCMSG accepts (R201) -/

/-- The padded message's text fits exactly when the message is at most half the capacity: `CAP / 2` is a multiple of 8 (R6). -/
theorem paddedLength_fits_iff (c : Config) (n : Nat) : 2 * paddedLength n ≤ c.cap ↔ n ≤ c.cap / 2 := by
  rw [paddedLength_eq, Config.cap]
  omega

/-- An ENCMSG that has passed its checks reports no error. -/
theorem encmsg_succeeds_iff : (∃ t, exec .encmsg s = .next t ∧ t.err = 0#4) ↔ EncmsgReady s :=
  ⟨fun ⟨_, hx, ht⟩ => (encmsg_ok hx ht).1, fun h => ⟨_, exec_encmsg h, rfl⟩⟩

/-- Settles O46: of ENCMSG's three checks only that of the padded length is left open. -/
theorem encmsgAcceptsUpToHalfCapacity : Obligations.EncmsgAcceptsUpToHalfCapacity := by
  intro s hk hi
  rw [encmsg_succeeds_iff, State.cap, ← paddedLength_fits_iff]
  exact ⟨EncmsgReady.room, fun h => ⟨Nat.one_le_iff_ne_zero.mp hk, Nat.one_le_iff_ne_zero.mp hi, h⟩⟩

end Sys2Proof.Machine
